-- ==== Sys2Proof/Word.lean ====
section
/-! DEFINITION. The two bit-vector types of the machine (00_scope.md R7). -/

namespace Sys2Proof

/-- One memory cell's content (20_memory.md R70). -/
abbrev Byte := BitVec 8

/-- `WORD`, the register, data, address and instruction width (00_scope.md R7). -/
abbrev Word := BitVec 16

end Sys2Proof
end

