-- ==== Sys2Proof/Config.lean ====
section
/-! DEFINITION. The implementation parameters of 00_scope.md R7, and the one free value. -/

namespace Sys2Proof

/-- `HIGH_BYTE_ADDR`: where the second byte of a word access lies (20_memory.md R77, decision D8: OPEN). -/
inductive HighByteAddr where
  /-- `(a + 1) mod 2^16` -/
  | wrap16
  /-- `a + 1`, so the byte after 0xFFFF is out of range -/
  | linear
deriving DecidableEq, Repr

/-- The parameters that a step reads (00_scope.md R7). They ride in `State` as data that no step writes, so
that a statement about every state is a statement about every setting of them. DESIGN CHOICE (safe), log entry 1. -/
structure Config where
  /-- `MEM_SIZE`, the number of bytes of memory (20_memory.md R70, R73) -/
  memSize : Nat
  /-- `HIGH_BYTE_ADDR` (20_memory.md R77) -/
  highByteAddr : HighByteAddr
  /-- `CONST_TABLE`, the AL family's constants (30_encoding.md R115) -/
  constTable : Vector Word 8
deriving DecidableEq, Repr

/-- The settings of the machine after reset: the spec's defaults for `MEM_SIZE` and `CONST_TABLE` (00_scope.md R7)
and `wrap16` for the OPEN `HIGH_BYTE_ADDR`. DESIGN CHOICE (unsafe), log entry 6, for the last. -/
def Config.reference : Config :=
  { memSize := 65536, highByteAddr := .wrap16, constTable := #v[0, 1, 2, 4, 8, 16, 32, 0xFFFF] }

/-- The bounds the spec puts on `MEM_SIZE`: 1 ≤ MEM_SIZE ≤ 65536 (00_scope.md R7, decision D7). -/
abbrev Config.Valid (c : Config) : Prop := 1 ≤ c.memSize ∧ c.memSize ≤ 65536

/-- `MEM_INIT`: what a byte that nothing has written holds (70_reset_and_hazards.md R354, decision D28: OPEN).
A FREE VALUE: it has no body, so nothing can be proved of it. Log entry 4 (safe). -/
opaque Config.memInit : Nat → Byte

end Sys2Proof
end

