-- ==== Sys2Proof/Syntax.lean ====
section
/-! DEFINITION. The instructions: one constructor of `Instr` per row of spec/opcode_table.json
(30_encoding.md R118), with the operand fields of the row's format (R104 to R112). -/

namespace Sys2Proof

/-- A register number: a 3-bit field, so always 0 to 7 (30_encoding.md R102, 10_state.md R30). -/
abbrev RegIdx := Fin 8

/-- The W/B selector: 1 selects byte mode, 0 word mode (00_scope.md R18). -/
inductive Width where
  | word
  | byte
deriving DecidableEq, Repr

/-- The AL source operand, chosen by the R/C selector (30_encoding.md R106, R115). -/
inductive AlSrc where
  /-- R/C = 0: register SRC -/
  | reg (r : RegIdx)
  /-- R/C = 1: entry CON of the constant table -/
  | const (index : Fin 8)
deriving DecidableEq, Repr

/-- The LD/ST address-adjustment bits (30_encoding.md R109, 42_mem.md R193). -/
structure AdjustMode where
  /-- PRPO: true is pre, false is post -/
  pre : Bool
  /-- DEC -/
  dec : Bool
  /-- INC -/
  inc : Bool
deriving DecidableEq, Repr

/-- The seven family tags (00_scope.md R17, 30_encoding.md R119). -/
inductive Family where
  | rin | mem | al | rex | so | toc | sys
deriving DecidableEq, Repr

/-- The instructions, in the order of the opcode map (30_encoding.md R118). Offsets and displacements are the
encoded two's-complement fields; the SYS constructors keep the bits no rule reads, because the report of
47_sys.md R310 carries the whole word. -/
inductive Instr where
  | bl (off : BitVec 13)
  | beq (off : BitVec 10)
  | bne (off : BitVec 10)
  | bc (off : BitVec 10)
  | bnc (off : BitVec 10)
  | bn (off : BitVec 10)
  | bge (off : BitVec 10)
  | blt (off : BitVec 10)
  | bra (off : BitVec 10)
  | add (w : Width) (src : AlSrc) (dst : RegIdx)
  | addc (w : Width) (src : AlSrc) (dst : RegIdx)
  | sub (w : Width) (src : AlSrc) (dst : RegIdx)
  | subc (w : Width) (src : AlSrc) (dst : RegIdx)
  | dadd (w : Width) (src : AlSrc) (dst : RegIdx)
  | cmp (w : Width) (src : AlSrc) (dst : RegIdx)
  | xor (w : Width) (src : AlSrc) (dst : RegIdx)
  | and (w : Width) (src : AlSrc) (dst : RegIdx)
  | or (w : Width) (src : AlSrc) (dst : RegIdx)
  | bit (w : Width) (src : AlSrc) (dst : RegIdx)
  | bic (w : Width) (src : AlSrc) (dst : RegIdx)
  | bis (w : Width) (src : AlSrc) (dst : RegIdx)
  | mov (w : Width) (src dst : RegIdx)
  | swap (src dst : RegIdx)
  | sra (w : Width) (dst : RegIdx)
  | rrc (w : Width) (dst : RegIdx)
  | comp (w : Width) (dst : RegIdx)
  | swpb (dst : RegIdx)
  | sxt (dst : RegIdx)
  | setpri (low : BitVec 3)
  | svc (low : BitVec 4)
  | setcc (low : BitVec 5)
  | clrcc (low : BitVec 5)
  | cex (low : BitVec 10)
  | ld (mode : AdjustMode) (w : Width) (src dst : RegIdx)
  | st (mode : AdjustMode) (w : Width) (src dst : RegIdx)
  | movl (imm : Byte) (dst : RegIdx)
  | movlz (imm : Byte) (dst : RegIdx)
  | movls (imm : Byte) (dst : RegIdx)
  | movh (imm : Byte) (dst : RegIdx)
  | ldr (disp : BitVec 7) (w : Width) (src dst : RegIdx)
  | str (disp : BitVec 7) (w : Width) (src dst : RegIdx)
deriving DecidableEq, Repr

end Sys2Proof
end

