-- ==== Sys2Proof/WellFormed.lean ====
section
/-! DEFINITION. Which terms of `Instr` spell an instruction that can execute. -/

namespace Sys2Proof

/-- Every operand field is bounded by its type, so one check is left: BL with offset 0 is the word 0x0000, the
halt sentinel, "but BL with a zero offset never executes" (30_encoding.md R122, 46_toc.md R291). -/
def Instr.wellFormed : Instr → Bool
  | .bl off => off != 0
  | .beq _ | .bne _ | .bc _ | .bnc _ | .bn _ | .bge _ | .blt _ | .bra _ => true
  | .add _ _ _ | .addc _ _ _ | .sub _ _ _ | .subc _ _ _ | .dadd _ _ _ | .cmp _ _ _ => true
  | .xor _ _ _ | .and _ _ _ | .or _ _ _ | .bit _ _ _ | .bic _ _ _ | .bis _ _ _ => true
  | .mov _ _ _ | .swap _ _ => true
  | .sra _ _ | .rrc _ _ | .comp _ _ | .swpb _ | .sxt _ => true
  | .setpri _ | .svc _ | .setcc _ | .clrcc _ | .cex _ => true
  | .ld _ _ _ _ | .st _ _ _ _ => true
  | .movl _ _ | .movlz _ _ | .movls _ _ | .movh _ _ => true
  | .ldr _ _ _ _ | .str _ _ _ _ => true

end Sys2Proof
end

