-- ==== Sys2Proof/Decode.lean ====
section
/-! DEFINITION. The instruction_decoder (30_encoding.md): field extraction, the opcode table and the scan of it,
the decoded record, and the encoder written from the formats R104 to R112. -/

namespace Sys2Proof

/-! ## Bit fields and sign extension -/

/-- DST, bits 2:0 (30_encoding.md R102). -/
def dstField (w : Word) : RegIdx := (w.extractLsb' 0 3).toFin

/-- SRC (or CON), bits 5:3 (30_encoding.md R102). -/
def srcField (w : Word) : RegIdx := (w.extractLsb' 3 3).toFin

/-- W/B, bit 6 (30_encoding.md R117; polarity 00_scope.md R18). -/
def widthField (w : Word) : Width := if w.getLsbD 6 then .byte else .word

/-- R/C, bit 7, with the SRC/CON field it selects for (30_encoding.md R106, R115). -/
def alSrcField (w : Word) : AlSrc := if w.getLsbD 7 then .const (srcField w) else .reg (srcField w)

/-- PRPO bit 9, DEC bit 8, INC bit 7 of LD and ST (30_encoding.md R109, R117). -/
def adjustField (w : Word) : AdjustMode := { pre := w.getLsbD 9, dec := w.getLsbD 8, inc := w.getLsbD 7 }

/-- imm8, bits 10:3, of RIN (30_encoding.md R110, R116). -/
def immField (w : Word) : Byte := w.extractLsb' 3 8

/-- OFF7, bits 13:7, of LDR and STR (30_encoding.md R111; 90_conflicts.md C2). -/
def dispField (w : Word) : BitVec 7 := w.extractLsb' 7 7

/-- OFF13, bits 12:0, of BL (30_encoding.md R104). -/
def off13Field (w : Word) : BitVec 13 := w.extractLsb' 0 13

/-- OFF10, bits 9:0, of the other branches (30_encoding.md R105). -/
def off10Field (w : Word) : BitVec 10 := w.extractLsb' 0 10

/-- `sext_N` (00_scope.md R10). -/
def sext {n : Nat} (v : BitVec n) : Word := v.signExtend 16

/-- The branch target `(pc + 2*off) mod 2^16`, where pc is the advanced PC (30_encoding.md R113). -/
def branchTarget {n : Nat} (pc : Word) (off : BitVec n) : Word := pc + 2 * sext off

/-- The word whose low byte is `lo` and high byte `hi` (20_memory.md R81). -/
def wordOfBytes (lo hi : Byte) : Word := hi ++ lo

/-- Bits 7:0 of a word. -/
def loByte (w : Word) : Byte := w.extractLsb' 0 8

/-- Bits 15:8 of a word. -/
def hiByte (w : Word) : Byte := w.extractLsb' 8 8

/-! ## The opcode table -/

/-- One row of the opcode map (30_encoding.md R118): a word belongs to the row when `word & mask = pattern`, and
`fields` reads its operands from the raw word (R101, 90_conflicts.md C8). -/
structure OpcodeRow where
  mnemonic : String
  family : Family
  pattern : Word
  mask : Word
  fields : Word → Instr

/-- A row of format BR (30_encoding.md R105). -/
def brRow (mnemonic : String) (pattern : Word) (mk : BitVec 10 → Instr) : OpcodeRow :=
  { mnemonic, family := .toc, pattern, mask := 0xFC00, fields := fun w => mk (off10Field w) }

/-- A row of format AL (30_encoding.md R106). -/
def alRow (mnemonic : String) (pattern : Word) (mk : Width → AlSrc → RegIdx → Instr) : OpcodeRow :=
  { mnemonic, family := .al, pattern, mask := 0xFF00, fields := fun w => mk (widthField w) (alSrcField w) (dstField w) }

/-- A row of format SO that has a W/B bit (30_encoding.md R108). -/
def soRow (mnemonic : String) (pattern : Word) (mk : Width → RegIdx → Instr) : OpcodeRow :=
  { mnemonic, family := .so, pattern, mask := 0xFFB8, fields := fun w => mk (widthField w) (dstField w) }

/-- A row of format SO that is always full-word (30_encoding.md R108). -/
def soWordRow (mnemonic : String) (pattern : Word) (mk : RegIdx → Instr) : OpcodeRow :=
  { mnemonic, family := .so, pattern, mask := 0xFFF8, fields := fun w => mk (dstField w) }

/-- A row of format LD/ST (30_encoding.md R109). -/
def ldstRow (mnemonic : String) (pattern : Word) (mk : AdjustMode → Width → RegIdx → RegIdx → Instr) : OpcodeRow :=
  { mnemonic, family := .mem, pattern, mask := 0xFC00,
    fields := fun w => mk (adjustField w) (widthField w) (srcField w) (dstField w) }

/-- A row of format RIN (30_encoding.md R110). -/
def rinRow (mnemonic : String) (pattern : Word) (mk : Byte → RegIdx → Instr) : OpcodeRow :=
  { mnemonic, family := .rin, pattern, mask := 0xF800, fields := fun w => mk (immField w) (dstField w) }

/-- A row of format LDR/STR (30_encoding.md R111). -/
def indexedRow (mnemonic : String) (pattern : Word) (mk : BitVec 7 → Width → RegIdx → RegIdx → Instr) : OpcodeRow :=
  { mnemonic, family := .mem, pattern, mask := 0xC000,
    fields := fun w => mk (dispField w) (widthField w) (srcField w) (dstField w) }

/-- The TOC rows of the opcode map (30_encoding.md R118). -/
def tocRows : List OpcodeRow :=
  [ { mnemonic := "BL", family := .toc, pattern := 0x0000, mask := 0xE000, fields := fun w => .bl (off13Field w) },
    brRow "BEQ" 0x2000 .beq, brRow "BNE" 0x2400 .bne, brRow "BC" 0x2800 .bc, brRow "BNC" 0x2C00 .bnc,
    brRow "BN" 0x3000 .bn, brRow "BGE" 0x3400 .bge, brRow "BLT" 0x3800 .blt, brRow "BRA" 0x3C00 .bra ]

/-- The AL rows of the opcode map. -/
def alRows : List OpcodeRow :=
  [ alRow "ADD" 0x4000 .add, alRow "ADDC" 0x4100 .addc, alRow "SUB" 0x4200 .sub, alRow "SUBC" 0x4300 .subc,
    alRow "DADD" 0x4400 .dadd, alRow "CMP" 0x4500 .cmp, alRow "XOR" 0x4600 .xor, alRow "AND" 0x4700 .and,
    alRow "OR" 0x4800 .or, alRow "BIT" 0x4900 .bit, alRow "BIC" 0x4A00 .bic, alRow "BIS" 0x4B00 .bis ]

/-- The REX rows of the opcode map (R107). -/
def rexRows : List OpcodeRow :=
  [ { mnemonic := "MOV", family := .rex, pattern := 0x4C00, mask := 0xFF80,
      fields := fun w => .mov (widthField w) (srcField w) (dstField w) },
    { mnemonic := "SWAP", family := .rex, pattern := 0x4C80, mask := 0xFFC0,
      fields := fun w => .swap (srcField w) (dstField w) } ]

/-- The SO rows of the opcode map (R108). -/
def soRows : List OpcodeRow :=
  [ soRow "SRA" 0x4D00 .sra, soRow "RRC" 0x4D08 .rrc, soRow "COMP" 0x4D10 .comp,
    soWordRow "SWPB" 0x4D18 .swpb, soWordRow "SXT" 0x4D20 .sxt ]

/-- The SYS rows of the opcode map (R112). -/
def sysRows : List OpcodeRow :=
  [ { mnemonic := "SETPRI", family := .sys, pattern := 0x4D80, mask := 0xFFF8, fields := fun w => .setpri (w.extractLsb' 0 3) },
    { mnemonic := "SVC", family := .sys, pattern := 0x4D90, mask := 0xFFF0, fields := fun w => .svc (w.extractLsb' 0 4) },
    { mnemonic := "SETCC", family := .sys, pattern := 0x4DA0, mask := 0xFFE0, fields := fun w => .setcc (w.extractLsb' 0 5) },
    { mnemonic := "CLRCC", family := .sys, pattern := 0x4DC0, mask := 0xFFE0, fields := fun w => .clrcc (w.extractLsb' 0 5) },
    { mnemonic := "CEX", family := .sys, pattern := 0x5000, mask := 0xFC00, fields := fun w => .cex (w.extractLsb' 0 10) } ]

/-- The MEM and RIN rows of the opcode map. -/
def memRinRows : List OpcodeRow :=
  [ ldstRow "LD" 0x5800 .ld, ldstRow "ST" 0x5C00 .st,
    rinRow "MOVL" 0x6000 .movl, rinRow "MOVLZ" 0x6800 .movlz, rinRow "MOVLS" 0x7000 .movls, rinRow "MOVH" 0x7800 .movh,
    indexedRow "LDR" 0x8000 .ldr, indexedRow "STR" 0xC000 .str ]

/-- The opcode map, one row per instruction, in the table's order (30_encoding.md R118). Every pattern is the
spec's general knowledge; a corrected table replaces this definition alone (decision D4; log entry 7). -/
def opcodeTable : List OpcodeRow := tocRows ++ alRows ++ rexRows ++ soRows ++ sysRows ++ memRinRows

/-- Does `w` belong to row `r`: `word & mask == pattern` (30_encoding.md R101). -/
def OpcodeRow.covers (r : OpcodeRow) (w : Word) : Bool := w &&& r.mask == r.pattern

/-! ## Decoding -/

/-- Why the decoder answers no instruction. -/
inductive DecodeError where
  /-- "no match": the word belongs to no row (30_encoding.md R121) -/
  | noMatch (word : Word)
  /-- fewer than the two bytes of an instruction word -/
  | truncated
deriving DecidableEq, Repr

/-- "Scan the opcode table in fixed order; first entry where `word & mask == pattern` wins" (30_encoding.md R101). -/
def decodeWord (w : Word) : Except DecodeError Instr :=
  match opcodeTable.find? (·.covers w) with
  | some r => .ok (r.fields w)
  | none => .error (.noMatch w)

/-- Decoding from bytes in address order, low byte first (20_memory.md R82): the instruction and the bytes after it. -/
def decode : List Byte → Except DecodeError (Instr × List Byte)
  | lo :: hi :: rest => (decodeWord (wordOfBytes lo hi)).map (·, rest)
  | _ => .error .truncated

/-- What the decoder reads from an opcode-table word, laid out low byte first as memory holds it (20_memory.md R82). -/
def decodeTableWord (nbits w : Nat) : Option Instr :=
  let word : Word := BitVec.ofNat 16 (w % 2 ^ nbits)
  match decode [loByte word, hiByte word] with
  | .ok (i, _) => some i
  | .error _ => none

/-! ## The decoded record -/

/-- One operand slot of the decoded record (30_encoding.md R120). -/
inductive OperandSlot where
  | reg (r : RegIdx)
  | const (index : Fin 8)
  | imm8 (b : Byte)
  | disp (d : BitVec 7)
  | target (a : Word)
  | currentPc (a : Word)
  | encodedOffset (field : Word)
deriving DecidableEq, Repr

/-- The decoded-instruction record (10_state.md R48, 30_encoding.md R120, R126). It is no state: the step uses
`decodeWord`, and this is the rest of what the decoder records. A selector the family lacks is `none`, the source's
"unset" sentinel (R117). -/
structure DecodedRecord where
  opcode : Word
  mnemonic : String
  family : Family
  operands : List OperandSlot
  rc : Option Bool
  wb : Option Bool
  prpo : Option Bool
  dec : Option Bool
  inc : Option Bool
deriving DecidableEq, Repr

/-- The W/B selector as the bit the record holds: 1 for byte (00_scope.md R18). -/
def Width.bit : Width → Bool
  | .word => false
  | .byte => true

/-- The operand slots, in the order of 30_encoding.md R120, and the selectors rc, wb, prpo, dec, inc of each family. -/
def recordFields (pc : Word) :
    Instr → List OperandSlot × Option Bool × Option Bool × Option Bool × Option Bool × Option Bool
  | .bl off => ([.target (branchTarget pc off), .currentPc pc, .encodedOffset (off.setWidth 16)], none, none, none, none, none)
  | .beq off | .bne off | .bc off | .bnc off | .bn off | .bge off | .blt off | .bra off =>
    ([.target (branchTarget pc off), .currentPc pc, .encodedOffset (off.setWidth 16)], none, none, none, none, none)
  | .add x s d | .addc x s d | .sub x s d | .subc x s d | .dadd x s d | .cmp x s d | .xor x s d | .and x s d
  | .or x s d | .bit x s d | .bic x s d | .bis x s d =>
    match s with
    | .reg r => ([.reg r, .reg d], some false, some x.bit, none, none, none)
    | .const c => ([.const c, .reg d], some true, some x.bit, none, none, none)
  | .mov x s d => ([.reg s, .reg d], none, some x.bit, none, none, none)
  | .swap s d => ([.reg s, .reg d], none, some false, none, none, none)
  | .sra x d | .rrc x d | .comp x d => ([.reg d], none, some x.bit, none, none, none)
  | .swpb d | .sxt d => ([.reg d], none, none, none, none, none)
  | .setpri _ | .svc _ | .setcc _ | .clrcc _ | .cex _ => ([], none, none, none, none, none)
  | .ld m x s d | .st m x s d => ([.reg s, .reg d], none, some x.bit, some m.pre, some m.dec, some m.inc)
  | .movl b d | .movlz b d | .movls b d | .movh b d => ([.reg d, .imm8 b], none, none, none, none, none)
  | .ldr v x s d | .str v x s d => ([.reg s, .reg d, .disp v], none, some x.bit, none, none, none)

/-- The record of a word that belongs to row `r` (10_state.md R48, 30_encoding.md R120). -/
def OpcodeRow.record (r : OpcodeRow) (w pc : Word) : DecodedRecord :=
  let (operands, rc, wb, prpo, dec, inc) := recordFields pc (r.fields w)
  { opcode := w &&& r.mask, mnemonic := r.mnemonic, family := r.family, operands, rc, wb, prpo, dec, inc }

/-- The instruction_decoder's output for `word` with the advanced PC `pc` (30_encoding.md R126): nomatch, or the record. -/
def decodedRecord (w pc : Word) : Option DecodedRecord := (opcodeTable.find? (·.covers w)).map (·.record w pc)

/-- The mnemonic identifier of an instruction (10_state.md R48), as the opcode map spells it (30_encoding.md R118). -/
def Instr.mnemonic : Instr → String
  | .bl _ => "BL"
  | .beq _ => "BEQ"
  | .bne _ => "BNE"
  | .bc _ => "BC"
  | .bnc _ => "BNC"
  | .bn _ => "BN"
  | .bge _ => "BGE"
  | .blt _ => "BLT"
  | .bra _ => "BRA"
  | .add _ _ _ => "ADD"
  | .addc _ _ _ => "ADDC"
  | .sub _ _ _ => "SUB"
  | .subc _ _ _ => "SUBC"
  | .dadd _ _ _ => "DADD"
  | .cmp _ _ _ => "CMP"
  | .xor _ _ _ => "XOR"
  | .and _ _ _ => "AND"
  | .or _ _ _ => "OR"
  | .bit _ _ _ => "BIT"
  | .bic _ _ _ => "BIC"
  | .bis _ _ _ => "BIS"
  | .mov _ _ _ => "MOV"
  | .swap _ _ => "SWAP"
  | .sra _ _ => "SRA"
  | .rrc _ _ => "RRC"
  | .comp _ _ => "COMP"
  | .swpb _ => "SWPB"
  | .sxt _ => "SXT"
  | .setpri _ => "SETPRI"
  | .svc _ => "SVC"
  | .setcc _ => "SETCC"
  | .clrcc _ => "CLRCC"
  | .cex _ => "CEX"
  | .ld _ _ _ _ => "LD"
  | .st _ _ _ _ => "ST"
  | .movl _ _ => "MOVL"
  | .movlz _ _ => "MOVLZ"
  | .movls _ _ => "MOVLS"
  | .movh _ _ => "MOVH"
  | .ldr _ _ _ _ => "LDR"
  | .str _ _ _ _ => "STR"

/-! ## The encoder -/

/-- A 3-bit register or constant-index field. -/
def regBits (r : RegIdx) : BitVec 3 := BitVec.ofFin r

/-- The W/B bit. -/
def widthBit : Width → BitVec 1
  | .word => 0#1
  | .byte => 1#1

/-- The R/C bit and the SRC/CON field, bits 7 and 5:3 of format AL, with the W/B bit between them. -/
def alSrcBits (w : Width) : AlSrc → BitVec 5
  | .reg r => 0#1 ++ widthBit w ++ regBits r
  | .const c => 1#1 ++ widthBit w ++ regBits c

/-- Format BR (30_encoding.md R105): 001, COND, OFF10. -/
def encodeBr (cond : BitVec 3) (off : BitVec 10) : Word := 0b001#3 ++ cond ++ off

/-- Format AL (30_encoding.md R106): 0100, OP, R/C, W/B, SRC, DST. -/
def encodeAl (op : BitVec 4) (w : Width) (src : AlSrc) (dst : RegIdx) : Word :=
  0b0100#4 ++ op ++ alSrcBits w src ++ regBits dst

/-- Format SO (30_encoding.md R108): 010011010, W/B, OP, DST. -/
def encodeSo (wb : BitVec 1) (op : BitVec 3) (dst : RegIdx) : Word := 0b010011010#9 ++ wb ++ op ++ regBits dst

/-- Format LD/ST (30_encoding.md R109): 01011, L, PRPO, DEC, INC, W/B, SRC, DST. -/
def encodeLdSt (l : BitVec 1) (m : AdjustMode) (w : Width) (src dst : RegIdx) : Word :=
  0b01011#5 ++ l ++ BitVec.ofBool m.pre ++ BitVec.ofBool m.dec ++ BitVec.ofBool m.inc ++ widthBit w
    ++ regBits src ++ regBits dst

/-- Format RIN (30_encoding.md R110): 011, OP, imm8, DST. -/
def encodeRin (op : BitVec 2) (imm : Byte) (dst : RegIdx) : Word := 0b011#3 ++ op ++ imm ++ regBits dst

/-- Format LDR/STR (30_encoding.md R111): 1, L, OFF7, W/B, SRC, DST. -/
def encodeIndexed (l : BitVec 1) (disp : BitVec 7) (w : Width) (src dst : RegIdx) : Word :=
  1#1 ++ l ++ disp ++ widthBit w ++ regBits src ++ regBits dst

/-- The one word of an instruction (30_encoding.md R100), from its format. -/
def encode : Instr → Word
  | .bl off => 0b000#3 ++ off
  | .beq off => encodeBr 0b000#3 off
  | .bne off => encodeBr 0b001#3 off
  | .bc off => encodeBr 0b010#3 off
  | .bnc off => encodeBr 0b011#3 off
  | .bn off => encodeBr 0b100#3 off
  | .bge off => encodeBr 0b101#3 off
  | .blt off => encodeBr 0b110#3 off
  | .bra off => encodeBr 0b111#3 off
  | .add w s d => encodeAl 0b0000#4 w s d
  | .addc w s d => encodeAl 0b0001#4 w s d
  | .sub w s d => encodeAl 0b0010#4 w s d
  | .subc w s d => encodeAl 0b0011#4 w s d
  | .dadd w s d => encodeAl 0b0100#4 w s d
  | .cmp w s d => encodeAl 0b0101#4 w s d
  | .xor w s d => encodeAl 0b0110#4 w s d
  | .and w s d => encodeAl 0b0111#4 w s d
  | .or w s d => encodeAl 0b1000#4 w s d
  | .bit w s d => encodeAl 0b1001#4 w s d
  | .bic w s d => encodeAl 0b1010#4 w s d
  | .bis w s d => encodeAl 0b1011#4 w s d
  | .mov w s d => 0b010011000#9 ++ widthBit w ++ regBits s ++ regBits d
  | .swap s d => 0b0100110010#10 ++ regBits s ++ regBits d
  | .sra w d => encodeSo (widthBit w) 0b000#3 d
  | .rrc w d => encodeSo (widthBit w) 0b001#3 d
  | .comp w d => encodeSo (widthBit w) 0b010#3 d
  | .swpb d => encodeSo 0#1 0b011#3 d
  | .sxt d => encodeSo 0#1 0b100#3 d
  | .setpri low => 0b0100110110000#13 ++ low
  | .svc low => 0b010011011001#12 ++ low
  | .setcc low => 0b01001101101#11 ++ low
  | .clrcc low => 0b01001101110#11 ++ low
  | .cex low => 0b010100#6 ++ low
  | .ld m w s d => encodeLdSt 0#1 m w s d
  | .st m w s d => encodeLdSt 1#1 m w s d
  | .movl b d => encodeRin 0b00#2 b d
  | .movlz b d => encodeRin 0b01#2 b d
  | .movls b d => encodeRin 0b10#2 b d
  | .movh b d => encodeRin 0b11#2 b d
  | .ldr v w s d => encodeIndexed 0#1 v w s d
  | .str v w s d => encodeIndexed 1#1 v w s d

end Sys2Proof
end

