-- ==== Sys2Proof/Machine/State.lean ====
section
/-! DEFINITION. The machine's state (10_state.md R50), its reports and run states, and the state after reset. -/

namespace Sys2Proof.Machine

/-- How a run ended (10_state.md R49, 40_cycle.md R151, R153). -/
inductive HaltKind where
  /-- the sentinel word 0x0000 was fetched -/
  | clean
  /-- byte `address` of an instruction fetch was out of range -/
  | fetchFault (address : Nat)
deriving DecidableEq, Repr

/-- The run state (10_state.md R49). -/
inductive RunState where
  | running
  | halted (kind : HaltKind)
deriving DecidableEq, Repr

/-- What a bus transaction reports when it fails (20_memory.md R73). The address is a plain number because the bus
carries a 17th bit for `next(0xFFFF)` (R93). -/
inductive BusError where
  | addressOutOfRange (address : Nat)
deriving DecidableEq, Repr

/-- What a step reports (60_exceptions.md R320). -/
inductive Report where
  | none
  | unknownInstruction (word : Word)
  | executionFailure (error : BusError)
  | halted (kind : HaltKind)
deriving DecidableEq, Repr

/-- Memory: the bytes something has written, by address, in one canonical form (`Memory.wf` of Machine/Ops.lean:
addresses strictly rising). An address that is not listed holds no known value (70_reset_and_hazards.md R354);
reading it gives the free value `Config.memInit`. Log entry 4. -/
abbrev Memory := List Host.Cell

/-- The architectural state (10_state.md R50), with two fields of the model's own, `report` and `cfg`. -/
structure State where
  /-- R0 to R7; R7 is the program counter and R5 the link register (10_state.md R30, R37) -/
  regs : Vector Word 8
  /-- the status word (10_state.md R40) -/
  psw : Word
  /-- memory (20_memory.md R70) -/
  mem : Memory
  /-- the run state (10_state.md R49) -/
  run : RunState
  /-- the last step's report, an output and not state of the machine (60_exceptions.md R320; log entry 5) -/
  report : Report
  /-- the parameters (00_scope.md R7); no step writes them (log entry 1) -/
  cfg : Config
deriving DecidableEq, Repr

/-- The machine's faults: the steps that have no next state. -/
inductive Fault where
  /-- Raised by `step` alone, never by an instruction: the core is halted, and "a halted core takes no further steps"
  (00_scope.md R19). Safe: the spec gives no next state. -/
  | halted (kind : HaltKind)
deriving DecidableEq, Repr

/-- The machine's refusals. -/
inductive Refusal where
  /-- Raised by an arm of `exec` whose instruction has no meaning yet; no arm does. Safe: it answers no state. -/
  | notModelled (mnemonic : String)
deriving DecidableEq, Repr

/-- The machine right after reset, before any image is loaded (70_reset_and_hazards.md R351): PSW 0 and run state
Running, as the spec says; R0 to R6 zero (DESIGN CHOICE, unsafe, log entry 2: REG_INIT is OPEN); R7 zero (DESIGN CHOICE,
unsafe, log entry 3: START_PC is OPEN); no byte of memory written (log entry 4); report none (DESIGN CHOICE, log
entry 5); the parameters of `Config.reference` (log entry 6). -/
def State.reset : State :=
  { regs := Vector.replicate 8 0, psw := 0, mem := [], run := .running, report := .none, cfg := Config.reference }

end Sys2Proof.Machine
end

