-- ==== Sys2Proof/Machine/Ops.lean ====
section
/-! DEFINITION. The named operations over registers, memory and the bus, the fetch, and the abort of an
instruction (this core's only exception mechanism). -/

namespace Sys2Proof.Machine

/-! ## Register file -/

/-- `x[r]` (10_state.md R32). -/
def State.reg (s : State) (r : RegIdx) : Word := s.regs.get r

/-- `x[r] <- v` (10_state.md R33, word mode). -/
def State.setReg (s : State) (r : RegIdx) (v : Word) : State := { s with regs := s.regs.set r v }

/-- The word `old` with its low byte replaced by `v`'s (10_state.md R33). -/
def mergeLow (old v : Word) : Word := wordOfBytes (loByte v) (hiByte old)

/-- The word `old` with its high byte replaced by `v`'s low byte (10_state.md R33). -/
def mergeHigh (old v : Word) : Word := wordOfBytes (loByte old) (loByte v)

/-- `write(reg, value, is_byte, is_high_byte)` (10_state.md R33). -/
def State.writeReg (s : State) (r : RegIdx) (v : Word) (isByte isHighByte : Bool) : State :=
  if !isByte then s.setReg r v
  else if !isHighByte then s.setReg r (mergeLow (s.reg r) v)
  else s.setReg r (mergeHigh (s.reg r) v)

/-- A result written in the selected width: the low byte in byte mode, the word in word mode (43_al.md R220,
42_mem.md R192, 44_rex.md R260, 45_so.md R270). -/
def State.writeWidth (s : State) (w : Width) (r : RegIdx) (v : Word) : State := s.writeReg r v w.bit false

/-- The number of the program counter, register 7 (10_state.md R30). -/
def pcIdx : RegIdx := 7

/-- The number of the link register, register 5 (10_state.md R30). -/
def lrIdx : RegIdx := 5

/-- `pc`, which is `x[7]` (10_state.md R37). -/
def State.pc (s : State) : Word := s.reg pcIdx

/-- `pc <- a` (10_state.md R37). -/
def State.setPc (s : State) (a : Word) : State := s.setReg pcIdx a

/-- The status word replaced. -/
def State.setPsw (s : State) (p : Word) : State := { s with psw := p }

/-! ## Memory cells -/

/-- The byte last written at `a`, if any was. An unlisted address holds no known value. -/
def Memory.get? : Memory → Nat → Option Byte
  | [], _ => none
  | (k, v) :: rest, a => if k = a then some v else Memory.get? rest a

/-- Byte `b` written at `a`, keeping the addresses strictly rising. -/
def Memory.set : Memory → Nat → Byte → Memory
  | [], a, b => [(a, b)]
  | (k, v) :: rest, a, b =>
    if a < k then (a, b) :: (k, v) :: rest
    else if a = k then (a, b) :: rest
    else (k, v) :: Memory.set rest a b

/-- The canonical form: addresses strictly rising. An entry means "written"; an unlisted address reads as no value at
all (`Memory.get?` answers none), so no entry can repeat what an unlisted address reads as. -/
abbrev Memory.wf (m : Memory) : Prop := m.Pairwise fun c d => c.1 < d.1

/-- The content of memory byte `a`: the last byte written to it, else `MEM_INIT(a)` (20_memory.md R89). -/
def State.byteAt (s : State) (a : Nat) : Byte := (Memory.get? s.mem a).getD (Config.memInit a)

/-- Byte `a` of memory replaced. -/
def State.setByte (s : State) (a : Nat) (b : Byte) : State := { s with mem := Memory.set s.mem a b }

/-! ## The bus -/

/-- The bound check: in range iff `a < MEM_SIZE` (20_memory.md R73, 90_conflicts.md C5). -/
def State.inRange (s : State) (a : Nat) : Bool := a < s.cfg.memSize

/-- `BusRead(a)` (20_memory.md R72, R73). -/
def State.busRead (s : State) (a : Nat) : Except BusError Byte :=
  if s.inRange a then .ok (s.byteAt a) else .error (.addressOutOfRange a)

/-- `BusWrite(a, b)` (20_memory.md R72, R73). -/
def State.busWrite (s : State) (a : Nat) (b : Byte) : Except BusError State :=
  if s.inRange a then .ok (s.setByte a b) else .error (.addressOutOfRange a)

/-- `next(a)`, the address of the second byte of a word access (20_memory.md R77). -/
def nextAddr (mode : HighByteAddr) (a : Word) : Nat :=
  match mode with
  | .wrap16 => (a + 1).toNat
  | .linear => a.toNat + 1

/-- `next(a)` under the machine's own `HIGH_BYTE_ADDR`. -/
def State.next (s : State) (a : Word) : Nat := nextAddr s.cfg.highByteAddr a

/-- `MemRead(a, n)`, n = 1 in byte mode and 2 in word mode (20_memory.md R78, 42_mem.md R191). -/
def State.memRead (s : State) (w : Width) (a : Word) : Except BusError Word :=
  match w with
  | .byte =>
    match s.busRead a.toNat with
    | .ok b => .ok (b.setWidth 16)
    | .error e => .error e
  | .word =>
    match s.busRead a.toNat with
    | .error e => .error e
    | .ok lo =>
      match s.busRead (s.next a) with
      | .error e => .error e
      | .ok hi => .ok (wordOfBytes lo hi)

/-- `MemWrite(a, n, v)` (20_memory.md R79): the state with every byte written before a failure, and the failure. -/
def State.memWrite (s : State) (w : Width) (a : Word) (v : Word) : State × Option BusError :=
  match s.busWrite a.toNat (loByte v) with
  | .error e => (s, some e)
  | .ok s₁ =>
    match w with
    | .byte => (s₁, none)
    | .word =>
      match s₁.busWrite (s.next a) (hiByte v) with
      | .error e => (s₁, some e)
      | .ok s₂ => (s₂, none)

/-! ## Reports, halts and the fetch -/

/-- The report of this step (60_exceptions.md R320). -/
def State.emit (s : State) (r : Report) : State := { s with report := r }

/-- `abort E(info)` (00_scope.md R13): the effects already made stay, the report is emitted and the run goes on. There is
no handler, no saved register and no mode (60_exceptions.md R321), and so no return either (R325). -/
def State.abort (s : State) (r : Report) : State := s.emit r

/-- `halt H` (00_scope.md R13, 10_state.md R49). -/
def State.halt (s : State) (k : HaltKind) : State := { s with run := .halted k, report := .halted k }

/-- The fetch of the word at the pc (40_cycle.md R152; a failure is R153). -/
def State.fetch (s : State) : Except BusError Word := s.memRead .word s.pc

/-- The state an instruction executes in: the pc advanced by 2 (40_cycle.md R152) and no report made yet (R150). -/
def State.advance (s : State) : State := (s.setPc (s.pc + 2)).emit .none

end Sys2Proof.Machine
end

