-- ==== Sys2Proof/Machine/Flags.lean ====
section
/-! DEFINITION. The status word's fields (10_state.md R40) and status_word_update, the one flag routine (R43 to R45). -/

namespace Sys2Proof.Machine

/-- PSW.C, bit 0. -/
def pswC (p : Word) : Bool := p.getLsbD 0
/-- PSW.Z, bit 1. -/
def pswZ (p : Word) : Bool := p.getLsbD 1
/-- PSW.N, bit 2. -/
def pswN (p : Word) : Bool := p.getLsbD 2
/-- PSW.SLP, bit 3; inert (10_state.md R46). -/
def pswSlp (p : Word) : Bool := p.getLsbD 3
/-- PSW.V, bit 4. -/
def pswV (p : Word) : Bool := p.getLsbD 4
/-- PSW.CP, bits 7:5; inert (10_state.md R46). -/
def pswCp (p : Word) : BitVec 3 := p.extractLsb' 5 3
/-- PSW.FLT, bit 8; inert (10_state.md R46). -/
def pswFlt (p : Word) : Bool := p.getLsbD 8
/-- The reserved bits 12:9; inert (10_state.md R47). -/
def pswReserved (p : Word) : BitVec 4 := p.extractLsb' 9 4
/-- PSW.PP, bits 15:13; inert (10_state.md R46). -/
def pswPp (p : Word) : BitVec 3 := p.extractLsb' 13 3

/-- The PSW bits that no rule writes: all but C, Z, N and V (10_state.md R43, R46, R47). -/
def pswInert (p : Word) : Word := p &&& 0xFFE8

/-- The four arithmetic flags. -/
structure Flags where
  z : Bool
  n : Bool
  c : Bool
  v : Bool
deriving DecidableEq, Repr

/-- A flag as the number its bit stands for. -/
def flagBit (b : Bool) (i : Nat) : Word := if b then 1#16 <<< i else 0

/-- The PSW with its four flags replaced and every other bit kept (10_state.md R43). -/
def withFlags (p : Word) (f : Flags) : Word :=
  pswInert p ||| flagBit f.c 0 ||| flagBit f.z 1 ||| flagBit f.n 2 ||| flagBit f.v 4

/-- The operation width in bits, 8 or 16 (00_scope.md R10). -/
def widthBits : Width → Nat
  | .word => 16
  | .byte => 8

/-- `v & mask(w)` (00_scope.md R10). -/
def maskTo (w : Width) (v : Nat) : Nat := v % 2 ^ widthBits w

/-- `msb(v, w)` (00_scope.md R10). -/
def msbOf (w : Width) (v : Nat) : Bool := v.testBit (widthBits w - 1)

/-- `update_flags(result, src, dst, is_byte, is_sub)`, the flags it computes (10_state.md R43; masking of src and dst:
decision D12). It reads no PSW bit (R44). -/
def computeFlags (result src dst : Nat) (w : Width) (isSub : Bool) : Flags :=
  let r := maskTo w result
  let s := maskTo w src
  let d := maskTo w dst
  { z := r == 0
    n := msbOf w r
    c := if isSub then decide (d < s) else decide (r < d)
    v := (msbOf w s == msbOf w d) && (msbOf w r != msbOf w d) }

/-- status_word_update with its override input for C (10_state.md R45, R52). -/
def updateFlags (p : Word) (result src dst : Nat) (w : Width) (isSub : Bool) (cOverride : Option Bool) : Word :=
  let f := computeFlags result src dst w isSub
  match cOverride with
  | none => withFlags p f
  | some c => withFlags p { f with c := c }

end Sys2Proof.Machine
end

