-- ==== Sys2Proof/Machine/Operands.lean ====
section
/-! DEFINITION. Operand forms: the AL source, the address adjustment of LD and ST, the indexed effective address. -/

namespace Sys2Proof.Machine

/-- The AL source operand before the width is applied (30_encoding.md R115). -/
def State.alOperand (s : State) : AlSrc → Word
  | .reg r => s.reg r
  | .const i => s.cfg.constTable.get i

/-- The AL source operand: sign-extended from 8 bits in byte mode (43_al.md R220). -/
def State.alSource (s : State) (w : Width) (src : AlSrc) : Word :=
  match w with
  | .word => s.alOperand src
  | .byte => sext (loByte (s.alOperand src))

/-- `n`, the bytes a transfer moves, the adjustment step and the displacement scale (42_mem.md R191, R195). -/
def widthStep : Width → Word
  | .word => 2
  | .byte => 1

/-- `adjust(a)` (42_mem.md R193; INC and DEC together: decision D21). -/
def adjustAddr (m : AdjustMode) (w : Width) (a : Word) : Word :=
  let a₁ := if m.inc then a + widthStep w else a
  if m.dec then a₁ - widthStep w else a₁

/-- Does the instruction write its address register: INC or DEC (42_mem.md R193). -/
def modeAdjusts (m : AdjustMode) : Bool := m.inc || m.dec

/-- The pre-adjust write of the address register (42_mem.md R193, R194 (1)). -/
def State.preAdjust (s : State) (m : AdjustMode) (w : Width) (ar : RegIdx) : State :=
  if m.pre && modeAdjusts m then s.setReg ar (adjustAddr m w (s.reg ar)) else s

/-- The post-adjust write of the address register, from the access's address (42_mem.md R193, R194 (5)). -/
def State.postAdjust (s : State) (m : AdjustMode) (w : Width) (ar : RegIdx) (ea : Word) : State :=
  if !m.pre && modeAdjusts m then s.setReg ar (adjustAddr m w ea) else s

/-- The effective address of LD and ST: the address register after the pre-adjust (42_mem.md R193). -/
def State.indirectEa (s : State) (m : AdjustMode) (w : Width) (ar : RegIdx) : Word := (s.preAdjust m w ar).reg ar

/-- The indexed effective address of LDR and STR (42_mem.md R195; displacement 30_encoding.md R114). -/
def State.indexedEa (s : State) (disp : BitVec 7) (w : Width) (base : RegIdx) : Word :=
  s.reg base + sext disp * widthStep w

end Sys2Proof.Machine
end

