-- ==== Sys2Proof/Machine/Al.lean ====
section
/-! DEFINITION. The AL family (43_al.md) and the alu_with_flags block it shares with SO (R235). Results are computed on
unbounded integers and narrowed by the flag routine and the write-back (R234). -/

namespace Sys2Proof.Machine

/-- The outputs of alu_with_flags (43_al.md R235). -/
structure AluOut where
  /-- the unnarrowed result -/
  r : Nat
  writeback : Bool
  isSub : Bool
  /-- the value that replaces update_flags' C (DADD and RRC) -/
  cOverride : Option Bool
deriving DecidableEq, Repr

/-- `twos(s)` (43_al.md R221). -/
def twos (s : Word) : Word := ~~~s + 1

/-- `bitmask(s) = 2^s mod 2^16` (43_al.md R221; decision D16, log entry 9). -/
def bitmask (s : Word) : Word := if s.toNat < 16 then 1#16 <<< s.toNat else 0

/-- The carry-in as a number. -/
def carryNat (c : Bool) : Nat := if c then 1 else 0

/-- `k` packed-BCD digits of `d + s + c`, least significant first, and the decimal carry out (43_al.md R226; decision
D15, 90_conflicts.md C3). -/
def bcdAdd : Nat → Nat → Nat → Bool → Nat × Bool
  | 0, _, _, c => (0, c)
  | k + 1, d, s, c =>
    let t := d % 16 + s % 16 + carryNat c
    let digit := if t > 9 then (t + 6) % 16 else t
    let rest := bcdAdd k (d / 16) (s / 16) (decide (t > 9))
    (digit + 16 * rest.1, rest.2)

/-- The number of BCD digits: 2 in byte mode, 4 in word mode (43_al.md R226). -/
def bcdDigits : Width → Nat
  | .word => 4
  | .byte => 2

/-- `r <- d + s` (43_al.md R222). -/
def aluAdd (_ : Width) (d s : Word) (_ : Bool) : AluOut :=
  { r := d.toNat + s.toNat, writeback := true, isSub := false, cOverride := none }

/-- `r <- d + s + cin` (43_al.md R223). -/
def aluAddc (_ : Width) (d s : Word) (cin : Bool) : AluOut :=
  { r := d.toNat + s.toNat + carryNat cin, writeback := true, isSub := false, cOverride := none }

/-- `r <- d + twos(s)` (43_al.md R224). -/
def aluSub (_ : Width) (d s : Word) (_ : Bool) : AluOut :=
  { r := d.toNat + (twos s).toNat, writeback := true, isSub := true, cOverride := none }

/-- `r <- d + twos(s) + cin` (43_al.md R225; decision D14). -/
def aluSubc (_ : Width) (d s : Word) (cin : Bool) : AluOut :=
  { r := d.toNat + (twos s).toNat + carryNat cin, writeback := true, isSub := true, cOverride := none }

/-- Decimal addition, with the decimal carry replacing C (43_al.md R226; 90_conflicts.md C6). -/
def aluDadd (w : Width) (d s : Word) (cin : Bool) : AluOut :=
  let sum := bcdAdd (bcdDigits w) d.toNat s.toNat cin
  { r := sum.1, writeback := true, isSub := false, cOverride := some sum.2 }

/-- SUB's result for the flags alone (43_al.md R227). -/
def aluCmp (_ : Width) (d s : Word) (_ : Bool) : AluOut :=
  { r := d.toNat + (twos s).toNat, writeback := false, isSub := true, cOverride := none }

/-- `r <- d ^ s` (43_al.md R228). -/
def aluXor (_ : Width) (d s : Word) (_ : Bool) : AluOut :=
  { r := (d ^^^ s).toNat, writeback := true, isSub := false, cOverride := none }

/-- `r <- d & s` (43_al.md R229). -/
def aluAnd (_ : Width) (d s : Word) (_ : Bool) : AluOut :=
  { r := (d &&& s).toNat, writeback := true, isSub := false, cOverride := none }

/-- `r <- d | s` (43_al.md R230). -/
def aluOr (_ : Width) (d s : Word) (_ : Bool) : AluOut :=
  { r := (d ||| s).toNat, writeback := true, isSub := false, cOverride := none }

/-- `r <- d & bitmask(s)`, no write-back (43_al.md R231). -/
def aluBit (_ : Width) (d s : Word) (_ : Bool) : AluOut :=
  { r := (d &&& bitmask s).toNat, writeback := false, isSub := false, cOverride := none }

/-- `r <- d & ~bitmask(s)` (43_al.md R232). -/
def aluBic (_ : Width) (d s : Word) (_ : Bool) : AluOut :=
  { r := (d &&& ~~~(bitmask s)).toNat, writeback := true, isSub := false, cOverride := none }

/-- `r <- d | bitmask(s)` (43_al.md R233). -/
def aluBis (_ : Width) (d s : Word) (_ : Bool) : AluOut :=
  { r := (d ||| bitmask s).toNat, writeback := true, isSub := false, cOverride := none }

/-- The ALU's outputs applied: the status word updated, then the result written back in the selected width
(43_al.md R220, 45_so.md R270). `src` and `d` are update_flags' operands. -/
def State.aluCommit (s : State) (w : Width) (dst : RegIdx) (src d : Word) (out : AluOut) : State :=
  let s₁ := s.setPsw (updateFlags s.psw out.r src.toNat d.toNat w out.isSub out.cOverride)
  if out.writeback then s₁.writeWidth w dst (BitVec.ofNat 16 out.r) else s₁

/-- Operand fetch and write-back of every AL instruction (43_al.md R220); `op` gets the width, d, s and the carry-in. -/
def State.runAl (s : State) (op : Width → Word → Word → Bool → AluOut) (w : Width) (src : AlSrc) (dst : RegIdx) : State :=
  let d := s.reg dst
  let v := s.alSource w src
  s.aluCommit w dst v d (op w d v (pswC s.psw))

/-- ADD (43_al.md R222). -/
def execAdd (w : Width) (src : AlSrc) (dst : RegIdx) (s : State) : Host.Outcome State Fault Refusal :=
  .next (s.runAl aluAdd w src dst)

/-- ADDC (43_al.md R223). -/
def execAddc (w : Width) (src : AlSrc) (dst : RegIdx) (s : State) : Host.Outcome State Fault Refusal :=
  .next (s.runAl aluAddc w src dst)

/-- SUB (43_al.md R224). -/
def execSub (w : Width) (src : AlSrc) (dst : RegIdx) (s : State) : Host.Outcome State Fault Refusal :=
  .next (s.runAl aluSub w src dst)

/-- SUBC (43_al.md R225). -/
def execSubc (w : Width) (src : AlSrc) (dst : RegIdx) (s : State) : Host.Outcome State Fault Refusal :=
  .next (s.runAl aluSubc w src dst)

/-- DADD (43_al.md R226). -/
def execDadd (w : Width) (src : AlSrc) (dst : RegIdx) (s : State) : Host.Outcome State Fault Refusal :=
  .next (s.runAl aluDadd w src dst)

/-- CMP (43_al.md R227). -/
def execCmp (w : Width) (src : AlSrc) (dst : RegIdx) (s : State) : Host.Outcome State Fault Refusal :=
  .next (s.runAl aluCmp w src dst)

/-- XOR (43_al.md R228). -/
def execXor (w : Width) (src : AlSrc) (dst : RegIdx) (s : State) : Host.Outcome State Fault Refusal :=
  .next (s.runAl aluXor w src dst)

/-- AND (43_al.md R229). -/
def execAnd (w : Width) (src : AlSrc) (dst : RegIdx) (s : State) : Host.Outcome State Fault Refusal :=
  .next (s.runAl aluAnd w src dst)

/-- OR (43_al.md R230). -/
def execOr (w : Width) (src : AlSrc) (dst : RegIdx) (s : State) : Host.Outcome State Fault Refusal :=
  .next (s.runAl aluOr w src dst)

/-- BIT (43_al.md R231). -/
def execBit (w : Width) (src : AlSrc) (dst : RegIdx) (s : State) : Host.Outcome State Fault Refusal :=
  .next (s.runAl aluBit w src dst)

/-- BIC (43_al.md R232). -/
def execBic (w : Width) (src : AlSrc) (dst : RegIdx) (s : State) : Host.Outcome State Fault Refusal :=
  .next (s.runAl aluBic w src dst)

/-- BIS (43_al.md R233). -/
def execBis (w : Width) (src : AlSrc) (dst : RegIdx) (s : State) : Host.Outcome State Fault Refusal :=
  .next (s.runAl aluBis w src dst)

end Sys2Proof.Machine
end

