-- ==== Sys2Proof/Machine/Mem.lean ====
section
/-! DEFINITION. The MEM family (42_mem.md): loads and stores, plain with address adjustment and indexed. No flag is
written (R190). A failing byte aborts the instruction and what was done before it stays (R196). -/

namespace Sys2Proof.Machine

/-- A load's transfer from `ea` and what follows it, `post`; a failed load writes no destination (42_mem.md R196). -/
def State.loadThen (s : State) (w : Width) (ea : Word) (dst : RegIdx) (post : State → State) : State :=
  match s.memRead w ea with
  | .error e => s.abort (.executionFailure e)
  | .ok v => post (s.writeWidth w dst v)

/-- A store's transfer to `ea` and what follows it, `post`; a failed store keeps its first byte (42_mem.md R196). -/
def State.storeThen (s : State) (w : Width) (ea : Word) (v : Word) (post : State → State) : State :=
  match s.memWrite w ea v with
  | (s₁, some e) => s₁.abort (.executionFailure e)
  | (s₁, none) => post s₁

/-- LD (42_mem.md R197; order of effects R194). -/
def execLd (mode : AdjustMode) (w : Width) (src dst : RegIdx) (s : State) : Host.Outcome State Fault Refusal :=
  let s₁ := s.preAdjust mode w src
  let ea := s₁.reg src
  .next (s₁.loadThen w ea dst fun t => t.postAdjust mode w src ea)

/-- ST (42_mem.md R198; the data register is read after the pre-adjust, R194). -/
def execSt (mode : AdjustMode) (w : Width) (src dst : RegIdx) (s : State) : Host.Outcome State Fault Refusal :=
  let s₁ := s.preAdjust mode w dst
  let ea := s₁.reg dst
  .next (s₁.storeThen w ea (s₁.reg src) fun t => t.postAdjust mode w dst ea)

/-- LDR (42_mem.md R199). -/
def execLdr (disp : BitVec 7) (w : Width) (src dst : RegIdx) (s : State) : Host.Outcome State Fault Refusal :=
  .next (s.loadThen w (s.indexedEa disp w src) dst id)

/-- STR (42_mem.md R200). -/
def execStr (disp : BitVec 7) (w : Width) (src dst : RegIdx) (s : State) : Host.Outcome State Fault Refusal :=
  .next (s.storeThen w (s.indexedEa disp w dst) (s.reg src) id)

end Sys2Proof.Machine
end

