-- ==== Sys2Proof/Machine/Rex.lean ====
section
/-! DEFINITION. The REX family (44_rex.md): move and swap. No flag is written. -/

namespace Sys2Proof.Machine

/-- MOV (44_rex.md R260; byte mode keeps the high byte, decision D26). -/
def execMov (w : Width) (src dst : RegIdx) (s : State) : Host.Outcome State Fault Refusal :=
  .next (s.writeWidth w dst (s.reg src))

/-- SWAP, "both captured before either write" (44_rex.md R261). -/
def execSwap (src dst : RegIdx) (s : State) : Host.Outcome State Fault Refusal :=
  let a := s.reg src
  let b := s.reg dst
  .next ((s.setReg dst a).setReg src b)

end Sys2Proof.Machine
end

