-- ==== Sys2Proof/Machine/Rin.lean ====
section
/-! DEFINITION. The RIN family (41_rin.md): an 8-bit immediate into a register. It writes one register and no flag. -/

namespace Sys2Proof.Machine

/-- MOVL: `x[D].lo <- imm8` (41_rin.md R171). -/
def execMovl (imm : Byte) (dst : RegIdx) (s : State) : Host.Outcome State Fault Refusal :=
  .next (s.writeReg dst (imm.setWidth 16) true false)

/-- MOVLZ: `x[D] <- {0x00, imm8}` (41_rin.md R172). -/
def execMovlz (imm : Byte) (dst : RegIdx) (s : State) : Host.Outcome State Fault Refusal :=
  .next (s.setReg dst (wordOfBytes imm 0x00))

/-- MOVLS: `x[D] <- {0xFF, imm8}` (41_rin.md R173). -/
def execMovls (imm : Byte) (dst : RegIdx) (s : State) : Host.Outcome State Fault Refusal :=
  .next (s.setReg dst (wordOfBytes imm 0xFF))

/-- MOVH: `x[D].hi <- imm8` (41_rin.md R174). -/
def execMovh (imm : Byte) (dst : RegIdx) (s : State) : Host.Outcome State Fault Refusal :=
  .next (s.writeReg dst (imm.setWidth 16) true true)

end Sys2Proof.Machine
end

