-- ==== Sys2Proof/Machine/So.lean ====
section
/-! DEFINITION. The SO family (45_so.md): shift, rotate, complement, byte swap, sign extend. Every SO instruction writes
back (decision D19) and passes its operand as both src and dst of update_flags (decision D17). -/

namespace Sys2Proof.Machine

/-- The common course of SO (45_so.md R270); `op` gets the width, the operand masked to it and the carry-in, and answers
the result and, for RRC, the new C. -/
def State.runSo (s : State) (op : Width → Nat → Bool → Nat × Option Bool) (w : Width) (dst : RegIdx) : State :=
  let d := s.reg dst
  let out := op w (maskTo w d.toNat) (pswC s.psw)
  s.aluCommit w dst d d { r := out.1, writeback := true, isSub := false, cOverride := out.2 }

/-- A bit placed at the top of the operation width. -/
def topBit (w : Width) (b : Bool) : Nat := if b then 2 ^ (widthBits w - 1) else 0

/-- `(x >> 1) | (x[w-1] << (w-1))` (45_so.md R271). -/
def soSra (w : Width) (x : Nat) (_ : Bool) : Nat × Option Bool := (x / 2 + topBit w (msbOf w x), none)

/-- `(x >> 1) | (cin << (w-1))`, and C from the bit shifted out (45_so.md R272; decision D18). -/
def soRrc (w : Width) (x : Nat) (cin : Bool) : Nat × Option Bool := (x / 2 + topBit w cin, some (x.testBit 0))

/-- `~x & mask(w)` (45_so.md R273). -/
def soComp (w : Width) (x : Nat) (_ : Bool) : Nat × Option Bool := (2 ^ widthBits w - 1 - x, none)

/-- `{d[7:0], d[15:8]}` (45_so.md R274). -/
def soSwpb (_ : Width) (x : Nat) (_ : Bool) : Nat × Option Bool := (x % 256 * 256 + x / 256, none)

/-- `sext_8(d[7:0])` (45_so.md R275). -/
def soSxt (_ : Width) (x : Nat) (_ : Bool) : Nat × Option Bool := ((sext (BitVec.ofNat 8 x)).toNat, none)

/-- SRA (45_so.md R271). -/
def execSra (w : Width) (dst : RegIdx) (s : State) : Host.Outcome State Fault Refusal :=
  .next (s.runSo soSra w dst)

/-- RRC (45_so.md R272). -/
def execRrc (w : Width) (dst : RegIdx) (s : State) : Host.Outcome State Fault Refusal :=
  .next (s.runSo soRrc w dst)

/-- COMP (45_so.md R273). -/
def execComp (w : Width) (dst : RegIdx) (s : State) : Host.Outcome State Fault Refusal :=
  .next (s.runSo soComp w dst)

/-- SWPB, always full-word (45_so.md R274). -/
def execSwpb (dst : RegIdx) (s : State) : Host.Outcome State Fault Refusal :=
  .next (s.runSo soSwpb .word dst)

/-- SXT, always full-word (45_so.md R275). -/
def execSxt (dst : RegIdx) (s : State) : Host.Outcome State Fault Refusal :=
  .next (s.runSo soSxt .word dst)

end Sys2Proof.Machine
end

