-- ==== Sys2Proof/Machine/Sys.lean ====
section
/-! DEFINITION. The SYS family and the unmatched words (47_sys.md): the unclassified case of the executor. The step
completes; its report carries the word and it has no other effect (R310, R311; decision D25). -/

namespace Sys2Proof.Machine

/-- `report UnknownInstruction(word)`, recoverable (47_sys.md R310, R311). -/
def State.unclassified (s : State) (word : Word) : State := s.abort (.unknownInstruction word)

/-- SETPRI: PSW.CP does not change (47_sys.md R310). -/
def execSetpri (low : BitVec 3) (s : State) : Host.Outcome State Fault Refusal :=
  .next (s.unclassified (encode (.setpri low)))

/-- SVC: no transfer of control (47_sys.md R310). -/
def execSvc (low : BitVec 4) (s : State) : Host.Outcome State Fault Refusal :=
  .next (s.unclassified (encode (.svc low)))

/-- SETCC: the PSW does not change (47_sys.md R310). -/
def execSetcc (low : BitVec 5) (s : State) : Host.Outcome State Fault Refusal :=
  .next (s.unclassified (encode (.setcc low)))

/-- CLRCC: the PSW does not change (47_sys.md R310). -/
def execClrcc (low : BitVec 5) (s : State) : Host.Outcome State Fault Refusal :=
  .next (s.unclassified (encode (.clrcc low)))

/-- CEX: the following instructions stay unconditional (47_sys.md R310). -/
def execCex (low : BitVec 10) (s : State) : Host.Outcome State Fault Refusal :=
  .next (s.unclassified (encode (.cex low)))

end Sys2Proof.Machine
end

