-- ==== Sys2Proof/Machine/Toc.lean ====
section
/-! DEFINITION. The TOC family (46_toc.md): branch with link and the conditional branches. The pc is already A + 2 when
they execute (R290). They write no flag and cannot fail. -/

namespace Sys2Proof.Machine

/-- `if cond: x[7] <- target` (46_toc.md R290). -/
def State.branchIf (s : State) {n : Nat} (cond : Bool) (off : BitVec n) : State :=
  if cond then s.setPc (branchTarget s.pc off) else s

/-- BL: LR takes the return address, then the pc the target (46_toc.md R291). -/
def execBl (off : BitVec 13) (s : State) : Host.Outcome State Fault Refusal :=
  .next ((s.setReg lrIdx s.pc).branchIf true off)

/-- BEQ: Z = 1 (46_toc.md R292). -/
def execBeq (off : BitVec 10) (s : State) : Host.Outcome State Fault Refusal :=
  .next (s.branchIf (pswZ s.psw) off)

/-- BNE: Z = 0 (46_toc.md R293). -/
def execBne (off : BitVec 10) (s : State) : Host.Outcome State Fault Refusal :=
  .next (s.branchIf (!pswZ s.psw) off)

/-- BC: C = 1 (46_toc.md R294). -/
def execBc (off : BitVec 10) (s : State) : Host.Outcome State Fault Refusal :=
  .next (s.branchIf (pswC s.psw) off)

/-- BNC: C = 0 (46_toc.md R295). -/
def execBnc (off : BitVec 10) (s : State) : Host.Outcome State Fault Refusal :=
  .next (s.branchIf (!pswC s.psw) off)

/-- BN: N = 1 (46_toc.md R296). -/
def execBn (off : BitVec 10) (s : State) : Host.Outcome State Fault Refusal :=
  .next (s.branchIf (pswN s.psw) off)

/-- BGE: N = 1 and V = 1, the source's rule and not the usual N = V (46_toc.md R297). -/
def execBge (off : BitVec 10) (s : State) : Host.Outcome State Fault Refusal :=
  .next (s.branchIf (pswN s.psw && pswV s.psw) off)

/-- BLT: N XOR V (46_toc.md R298). -/
def execBlt (off : BitVec 10) (s : State) : Host.Outcome State Fault Refusal :=
  .next (s.branchIf (pswN s.psw ^^ pswV s.psw) off)

/-- BRA (46_toc.md R299). -/
def execBra (off : BitVec 10) (s : State) : Host.Outcome State Fault Refusal :=
  .next (s.branchIf (true) off)

end Sys2Proof.Machine
end

