-- ==== Sys2Proof/Machine/Dispatch.lean ====
section
/-! DEFINITION. The executor's dispatch by mnemonic (40_cycle.md R154): one arm per instruction. -/

namespace Sys2Proof.Machine

/-- The meaning of one decoded instruction, in the state the fetch left (40_cycle.md R150). -/
def exec (i : Instr) (s : State) : Host.Outcome State Fault Refusal :=
  match i with
  | .bl off => Sys2Proof.Machine.execBl off s
  | .beq off => Sys2Proof.Machine.execBeq off s
  | .bne off => Sys2Proof.Machine.execBne off s
  | .bc off => Sys2Proof.Machine.execBc off s
  | .bnc off => Sys2Proof.Machine.execBnc off s
  | .bn off => Sys2Proof.Machine.execBn off s
  | .bge off => Sys2Proof.Machine.execBge off s
  | .blt off => Sys2Proof.Machine.execBlt off s
  | .bra off => Sys2Proof.Machine.execBra off s
  | .add w src dst => Sys2Proof.Machine.execAdd w src dst s
  | .addc w src dst => Sys2Proof.Machine.execAddc w src dst s
  | .sub w src dst => Sys2Proof.Machine.execSub w src dst s
  | .subc w src dst => Sys2Proof.Machine.execSubc w src dst s
  | .dadd w src dst => Sys2Proof.Machine.execDadd w src dst s
  | .cmp w src dst => Sys2Proof.Machine.execCmp w src dst s
  | .xor w src dst => Sys2Proof.Machine.execXor w src dst s
  | .and w src dst => Sys2Proof.Machine.execAnd w src dst s
  | .or w src dst => Sys2Proof.Machine.execOr w src dst s
  | .bit w src dst => Sys2Proof.Machine.execBit w src dst s
  | .bic w src dst => Sys2Proof.Machine.execBic w src dst s
  | .bis w src dst => Sys2Proof.Machine.execBis w src dst s
  | .mov w src dst => Sys2Proof.Machine.execMov w src dst s
  | .swap src dst => Sys2Proof.Machine.execSwap src dst s
  | .sra w dst => Sys2Proof.Machine.execSra w dst s
  | .rrc w dst => Sys2Proof.Machine.execRrc w dst s
  | .comp w dst => Sys2Proof.Machine.execComp w dst s
  | .swpb dst => Sys2Proof.Machine.execSwpb dst s
  | .sxt dst => Sys2Proof.Machine.execSxt dst s
  | .setpri low => Sys2Proof.Machine.execSetpri low s
  | .svc low => Sys2Proof.Machine.execSvc low s
  | .setcc low => Sys2Proof.Machine.execSetcc low s
  | .clrcc low => Sys2Proof.Machine.execClrcc low s
  | .cex low => Sys2Proof.Machine.execCex low s
  | .ld mode w src dst => Sys2Proof.Machine.execLd mode w src dst s
  | .st mode w src dst => Sys2Proof.Machine.execSt mode w src dst s
  | .movl imm dst => Sys2Proof.Machine.execMovl imm dst s
  | .movlz imm dst => Sys2Proof.Machine.execMovlz imm dst s
  | .movls imm dst => Sys2Proof.Machine.execMovls imm dst s
  | .movh imm dst => Sys2Proof.Machine.execMovh imm dst s
  | .ldr disp w src dst => Sys2Proof.Machine.execLdr disp w src dst s
  | .str disp w src dst => Sys2Proof.Machine.execStr disp w src dst s

end Sys2Proof.Machine
end

