-- ==== Sys2Proof/Machine/Cycle.lean ====
section
/-! DEFINITION. The instruction cycle (40_cycle.md): what one step does with the word the fetch answers, the whole
cycle, and the placing of an instruction where the fetch reads it. -/

namespace Sys2Proof.Machine

/-- The rest of a step after the pc's advance: the sentinel test, the decode, the execution (40_cycle.md R150, in the
order of 60_exceptions.md R323). -/
def State.runWord (s : State) (w : Word) : Host.Outcome State Fault Refusal :=
  if w = 0 then .next (s.halt .clean)
  else
    match decode [loByte w, hiByte w] with
    | .error _ => .next (s.unclassified w)
    | .ok (i, _) => exec i s

/-- The halt of a failed fetch; the pc is not advanced (40_cycle.md R153). -/
def State.fetchFailed (s : State) : BusError → State
  | .addressOutOfRange a => s.halt (.fetchFault a)

/-- One whole cycle (40_cycle.md R150). A halted core takes no further step (00_scope.md R19): the model's one fault. -/
def State.cycle (s : State) : Host.Outcome State Fault Refusal :=
  match s.run with
  | .halted k => .fault (.halted k)
  | .running =>
    match s.fetch with
    | .error e => .next (s.fetchFailed e)
    | .ok w => s.advance.runWord w

/-- `w` in the two bytes that the fetch reads next, low byte first, and the core running. -/
def State.placeWord (s : State) (w : Word) : State := { (s.memWrite .word s.pc w).1 with run := .running }

end Sys2Proof.Machine
end

