-- ==== Sys2Proof/Machine/Step.lean ====
section
/-! DEFINITION. One step of the core, and the placing of an opcode-table word where it fetches. -/

namespace Sys2Proof.Machine

/-- One step (40_cycle.md R150). -/
def step (s : State) : Host.Outcome State Fault Refusal := s.cycle

/-- `s` with the opcode-table word `w` of `nbits` bits in the two bytes that `step` fetches next, and the core running. -/
def State.withFetchWord (s : State) (nbits w : Nat) : State := s.placeWord (BitVec.ofNat 16 (w % 2 ^ nbits))

end Sys2Proof.Machine
end

