-- ==== Sys2Proof/Machine/Loader.lean ====
section
/-! DEFINITION. The host's operations on the core: write_block and dump (20_memory.md R92), the S-record loader's
checksum and effects, and the boot order (70_reset_and_hazards.md R350 to R361). No instruction uses them. -/

namespace Sys2Proof.Machine

/-! ## Host-side memory operations -/

/-- `write_block(addr, bytes)`: stops at the first out-of-range byte, and the bytes written stay (20_memory.md R92 (a)). -/
def State.writeBlock (s : State) (addr : Nat) : List Byte → State × Option BusError
  | [] => (s, none)
  | b :: rest =>
    match s.busWrite addr b with
    | .error e => (s, some e)
    | .ok s₁ => s₁.writeBlock (addr + 1) rest

/-- The bytes read from `addr` on, up to `n` of them, and the failure that stopped the reading early. -/
def State.readBlock (s : State) (addr : Nat) : Nat → List Byte × Option BusError
  | 0 => ([], none)
  | n + 1 =>
    match s.busRead addr with
    | .error e => ([], some e)
    | .ok b =>
      let rest := s.readBlock (addr + 1) n
      (b :: rest.1, rest.2)

/-- `dump(addr, length)`, read-only, clamped to `maxSpan` and stopped at the memory bound with a report (20_memory.md R92
(b)). The source gives no value of the maximum span (93_implementation_defined.md I11): it is an argument. -/
def State.dump (s : State) (maxSpan addr length : Nat) : List Byte × Option BusError := s.readBlock addr (min length maxSpan)

/-! ## S-records -/

/-- A well-formed record (70_reset_and_hazards.md R355). -/
structure SRecord where
  /-- the one-digit type -/
  type : Fin 10
  /-- the count of address, data and checksum bytes -/
  count : Byte
  address : Word
  data : List Byte
  /-- the trailing checksum byte -/
  checksum : Byte
deriving DecidableEq, Repr

/-- `count + addr_hi + addr_lo + d_0 + ...`, an unbounded sum (70_reset_and_hazards.md R356). -/
def recordSum (r : SRecord) : Nat :=
  r.count.toNat + (hiByte r.address).toNat + (loByte r.address).toNat + (r.data.map BitVec.toNat).sum

/-- `(~sum) & 0xFF` (70_reset_and_hazards.md R356). -/
def recordChecksum (r : SRecord) : Byte := BitVec.ofNat 8 (0xFF - recordSum r % 256)

/-- `accept` (70_reset_and_hazards.md R356). -/
def recordAccepted (r : SRecord) : Bool := recordChecksum r == r.checksum

/-- The value of a hexadecimal digit (DESIGN CHOICE, log entry 13: both letter cases). -/
def hexDigit (c : Char) : Option Nat :=
  let n := c.toNat
  if 48 ≤ n ∧ n ≤ 57 then some (n - 48)
  else if 65 ≤ n ∧ n ≤ 70 then some (n - 55)
  else if 97 ≤ n ∧ n ≤ 102 then some (n - 87)
  else none

/-- Pairs of hexadecimal digits as bytes; nothing else is accepted. -/
def hexBytes : List Char → Option (List Byte)
  | [] => some []
  | h :: l :: rest =>
    match hexDigit h, hexDigit l, hexBytes rest with
    | some a, some b, some bs => some (BitVec.ofNat 8 (16 * a + b) :: bs)
    | _, _, _ => none
  | [_] => none

/-- A record's bytes after its type digit: count, address high byte first, data, checksum (70_reset_and_hazards.md R355). -/
def recordOfBytes (type : Fin 10) : List Byte → Option SRecord
  | count :: hi :: lo :: rest =>
    match rest.getLast? with
    | none => none
    | some checksum =>
      if count.toNat = rest.length + 2 then
        some { type, count, address := wordOfBytes lo hi, data := rest.dropLast, checksum }
      else none
  | _ => none

/-- A line of the image as a record; none for a line that is not a well-formed record (70_reset_and_hazards.md R355, R357). -/
def parseRecord : List Char → Option SRecord
  | 'S' :: t :: rest =>
    let n := t.toNat
    if h : 48 ≤ n ∧ n ≤ 57 then
      match hexBytes rest with
      | some bytes => recordOfBytes ⟨n - 48, by omega⟩ bytes
      | none => none
    else none
  | _ => none

/-- An image's records in file order; "a line that is not a well-formed record, has no effect" (70_reset_and_hazards.md
R357, decision D36). -/
def parseImage (lines : List (List Char)) : List SRecord := lines.filterMap parseRecord

/-! ## Loading and booting -/

/-- What the loader reports for one record (70_reset_and_hazards.md R358, R359). -/
inductive LoadReport where
  | none
  | checksumMismatch
  | addressOutOfRange (error : BusError)
deriving DecidableEq, Repr

/-- The loader's own state: the core, and the start address once an S9 record was accepted. -/
structure LoadState where
  core : State
  start : Option Word
deriving DecidableEq, Repr

/-- An accepted record's effect by type (70_reset_and_hazards.md R357, R358, R360). -/
def LoadState.applyAccepted (l : LoadState) (r : SRecord) : LoadState × LoadReport :=
  if r.type = 1 then
    match l.core.writeBlock r.address.toNat r.data with
    | (s, none) => ({ l with core := s }, .none)
    | (s, some e) => ({ l with core := s }, .addressOutOfRange e)
  else if r.type = 9 then ({ l with start := some r.address }, .none)
  else (l, .none)

/-- One record: rejected on a checksum mismatch, with no effect (70_reset_and_hazards.md R359; for record types other than
0, 1 and 9 DESIGN CHOICE, log entry 12). -/
def LoadState.applyRecord (l : LoadState) (r : SRecord) : LoadState × LoadReport :=
  if recordAccepted r then l.applyAccepted r else (l, .checksumMismatch)

/-- The records in file order, and each one's report (70_reset_and_hazards.md R358, R361). -/
def LoadState.applyImage (l : LoadState) : List SRecord → LoadState × List LoadReport
  | [] => (l, [])
  | r :: rest =>
    let one := l.applyRecord r
    let more := one.1.applyImage rest
    (more.1, one.2 :: more.2)

/-- The core before the image is loaded: no byte of memory written, PSW 0, the registers at `REG_INIT`
(70_reset_and_hazards.md R361 (1)). -/
def State.created (cfg : Config) (regInit : Vector Word 8) : State := { State.reset with cfg := cfg, regs := regInit }

/-- The start of a run in the boot order of 70_reset_and_hazards.md R361: create, load, set R7 to the start address
(`START_PC` where no S9 record was accepted, R360), run. The OPEN parameters are arguments. -/
def State.boot (cfg : Config) (regInit : Vector Word 8) (startPc : Word) (image : List SRecord) : State × List LoadReport :=
  let loaded := LoadState.applyImage { core := State.created cfg regInit, start := none } image
  ({ loaded.1.core.setPc (loaded.1.start.getD startPc) with run := .running }, loaded.2)

end Sys2Proof.Machine
end

