-- ==== Sys2Proof/Safety.lean ====
section
/-! DEFINITION. What claims speak of: the invariant of every state, what an instruction leaves alone, the words that
spell no instruction. -/

namespace Sys2Proof.Machine

/-- The invariant of the machine: memory in canonical form, every written byte inside the memory bound (20_memory.md R73),
and the PSW bits outside C, Z, N and V zero (10_state.md R46, R47; 47_sys.md R313). -/
abbrev State.Inv (s : State) : Prop :=
  Memory.wf s.mem ∧ (∀ c ∈ s.mem, c.1 < s.cfg.memSize) ∧ pswInert s.psw = 0

/-- Every register outside `rs` is the same in both states. -/
def SameRegsBut (s t : State) (rs : List RegIdx) : Prop := ∀ r, r ∉ rs → t.reg r = s.reg r

/-- Every byte of memory reads the same in both states. -/
def SameMemory (s t : State) : Prop := ∀ a, t.byteAt a = s.byteAt a

/-- The run state, the report and the parameters are the same in both states. -/
def SameControl (s t : State) : Prop := t.run = s.run ∧ t.report = s.report ∧ t.cfg = s.cfg

/-- The frame of an instruction that only writes registers of `rs`: no flag, no memory byte, nothing else. -/
def OnlyRegs (s t : State) (rs : List RegIdx) : Prop :=
  SameRegsBut s t rs ∧ t.psw = s.psw ∧ SameMemory s t ∧ SameControl s t

/-- The frame of an instruction that writes registers of `rs` and the four arithmetic flags. -/
def OnlyRegsAndFlags (s t : State) (rs : List RegIdx) : Prop :=
  SameRegsBut s t rs ∧ pswInert t.psw = pswInert s.psw ∧ SameMemory s t ∧ SameControl s t

/-- The 1704 words that match no row of the opcode table, as 30_encoding.md R121 lists them. -/
def Unmatched (w : Word) : Prop :=
  let n := w.toNat
  (0x4CC0 ≤ n ∧ n ≤ 0x4CFF) ∨ (0x4D28 ≤ n ∧ n ≤ 0x4D3F) ∨ (0x4D58 ≤ n ∧ n ≤ 0x4D7F) ∨ (0x4D88 ≤ n ∧ n ≤ 0x4D8F)
    ∨ (0x4DE0 ≤ n ∧ n ≤ 0x4FFF) ∨ (0x5400 ≤ n ∧ n ≤ 0x57FF)

/-- The words that match a SYS row, as 30_encoding.md R112 places them and R118 gives their rows. -/
def SysWord (w : Word) : Prop :=
  let n := w.toNat
  (0x4D80 ≤ n ∧ n ≤ 0x4D87) ∨ (0x4D90 ≤ n ∧ n ≤ 0x4DDF) ∨ (0x5000 ≤ n ∧ n ≤ 0x53FF)

/-- The bytes a store of width `w` at `ea` writes (42_mem.md R191, 20_memory.md R79). -/
def storedBytes (s : State) (w : Width) (ea : Word) : List Nat :=
  match w with
  | .byte => [ea.toNat]
  | .word => [ea.toNat, s.next ea]

/-- Is every byte of a transfer of width `w` at `ea` in range (20_memory.md R73)? -/
def TransferInRange (s : State) (w : Width) (ea : Word) : Prop := ∀ a ∈ storedBytes s w ea, a < s.cfg.memSize

/-- The first byte address of a transfer that is out of range, given that one is (60_exceptions.md R322). -/
def firstFailing (s : State) (ea : Word) : Nat := if ea.toNat < s.cfg.memSize then s.next ea else ea.toNat

/-- The instruction's word is the number `word`, and it lies in the opcode-map row of the instruction's mnemonic, whose
mask is `mask` (30_encoding.md R101, R118; the patterns are the spec's general knowledge, log entry 7). -/
def EncodedAs (i : Instr) (word : Nat) (mask : Word) : Prop :=
  (encode i).toNat = word ∧ ∃ r ∈ opcodeTable, r.mnemonic = i.mnemonic ∧ r.mask = mask ∧ r.covers (encode i) = true

/-- `W/B<<6`. -/
def wbNumber : Width → Nat
  | .word => 0
  | .byte => 64

/-- `R/C<<7 | SRC<<3`. -/
def alSrcNumber : AlSrc → Nat
  | .reg r => r.val * 8
  | .const c => 128 + c.val * 8

/-- A flag or a mode bit as the number 0 or 1. -/
def bitNumber (b : Bool) : Nat := if b then 1 else 0

/-- Register `dst` of `t` holds the result `r` written back in the selected width: the word modulo 2^16, or the low byte
modulo 2^8 with the high byte of `old` kept (`write_back` of 43_al.md R220). -/
def WrittenBack (t : State) (old : Word) (w : Width) (dst : RegIdx) (r : Nat) : Prop :=
  match w with
  | .word => (t.reg dst).toNat = r % 65536
  | .byte => (loByte (t.reg dst)).toNat = r % 256 ∧ hiByte (t.reg dst) = hiByte old

/-- What an AL instruction with result `r` leaves: the result written back, the status word updated by update_flags with
the operands of 43_al.md R220, and nothing else changed. -/
def AlWrites (s t : State) (w : Width) (src : AlSrc) (dst : RegIdx) (r : Nat) (isSub : Bool) : Prop :=
  WrittenBack t (s.reg dst) w dst r ∧
    t.psw = updateFlags s.psw r (s.alSource w src).toNat (s.reg dst).toNat w isSub none ∧
    OnlyRegsAndFlags s t [dst]

/-- What CMP and BIT with result `r` leave: the status word updated, and nothing else changed. -/
def AlTests (s t : State) (w : Width) (src : AlSrc) (dst : RegIdx) (r : Nat) (isSub : Bool) : Prop :=
  t.psw = updateFlags s.psw r (s.alSource w src).toNat (s.reg dst).toNat w isSub none ∧ OnlyRegsAndFlags s t []

/-- What an SO instruction with result `r` leaves; `c` replaces update_flags' C where it is some (45_so.md R270). -/
def SoWrites (s t : State) (w : Width) (dst : RegIdx) (r : Nat) (c : Option Bool) : Prop :=
  WrittenBack t (s.reg dst) w dst r ∧
    t.psw = updateFlags s.psw r (s.reg dst).toNat (s.reg dst).toNat w false c ∧
    OnlyRegsAndFlags s t [dst]

/-- The branch target computed on integers: `(pc + 2*off) mod 2^16` (30_encoding.md R113). -/
def targetOf (pc : Word) (off : Int) : Word := BitVec.ofInt 16 (pc.toNat + 2 * off)

/-- The branch `i` with offset `off` completes, goes to its target when `cond` holds and changes nothing when not
(46_toc.md R290). -/
def BranchesWhen (i : Instr) (cond : Prop) (off : BitVec 10) (s : State) : Prop :=
  ∃ t, exec i s = .next t ∧ OnlyRegs s t [pcIdx] ∧ (cond → t.pc = targetOf s.pc off.toInt) ∧ (¬cond → t = s)

/-- The operand slots that 30_encoding.md R120 lists for a family, each read from the raw word `w` by arithmetic; `pc` is
the advanced pc that a target is computed from (R113, R126). -/
def listedSlots (w pc : Word) (family : Family) (mnemonic : String) : List OperandSlot :=
  let n := w.toNat
  let dst : Fin 8 := Fin.ofNat 8 n
  let src : Fin 8 := Fin.ofNat 8 (n / 8)
  match family with
  | .rin => [.reg dst, .imm8 (BitVec.ofNat 8 (n / 8))]
  | .mem =>
    if mnemonic = "LDR" ∨ mnemonic = "STR" then [.reg src, .reg dst, .disp (BitVec.ofNat 7 (n / 128))]
    else [.reg src, .reg dst]
  | .al => [if n / 128 % 2 = 1 then .const src else .reg src, .reg dst]
  | .rex => [.reg src, .reg dst]
  | .so => [.reg dst]
  | .toc =>
    if mnemonic = "BL" then
      [.target (targetOf pc (BitVec.ofNat 13 n).toInt), .currentPc pc, .encodedOffset (BitVec.ofNat 16 (n % 8192))]
    else [.target (targetOf pc (BitVec.ofNat 10 n).toInt), .currentPc pc, .encodedOffset (BitVec.ofNat 16 (n % 1024))]
  | .sys => []

/-- The record `d` of the word `w` holds each selector that 30_encoding.md R117 and R120 give its family, as the bit of `w`
at its position, and no other: R/C in AL; W/B in MEM, AL, REX (0 for SWAP) and SRA, RRC, COMP; PRPO, DEC and INC in LD
and ST. -/
def SelectorsAsListed (w : Word) (d : DecodedRecord) : Prop :=
  d.rc = (if d.family = .al then some (w.getLsbD 7) else none) ∧
    d.wb = (if d.family ∈ [Family.mem, .al, .rex] ∨ d.mnemonic ∈ ["SRA", "RRC", "COMP"] then some (w.getLsbD 6) else none) ∧
    (d.mnemonic = "SWAP" → d.wb = some false) ∧
    d.prpo = (if d.mnemonic ∈ ["LD", "ST"] then some (w.getLsbD 9) else none) ∧
    d.dec = (if d.mnemonic ∈ ["LD", "ST"] then some (w.getLsbD 8) else none) ∧
    d.inc = if d.mnemonic ∈ ["LD", "ST"] then some (w.getLsbD 7) else none

/-- What `adjust` leaves of an address: INC adds the width's step and DEC subtracts it (42_mem.md R193). -/
def adjustedBy (m : AdjustMode) (w : Width) (a : Word) : Word :=
  BitVec.ofInt 16 (a.toNat + (bitNumber m.inc - bitNumber m.dec : Int) * (widthStep w).toNat)

/-- The state of a step that reports an unknown instruction: the pc advanced, the report made, nothing else (47_sys.md
R310, R311). -/
def ReportsUnknown (s t : State) (w : Word) : Prop :=
  t.pc = s.pc + 2 ∧ t.report = .unknownInstruction w ∧ SameRegsBut s t [pcIdx] ∧ t.psw = s.psw ∧ SameMemory s t ∧
    t.run = s.run ∧ t.cfg = s.cfg

/-- Digit `i` of a packed-BCD number (43_al.md R226). -/
def bcdDigit (v i : Nat) : Nat := v / 16 ^ i % 16

/-- The decimal number that the first `k` packed-BCD digits of `v` spell. -/
def bcdValue (v : Nat) : Nat → Nat
  | 0 => 0
  | k + 1 => bcdValue v k + bcdDigit v k * 10 ^ k

end Sys2Proof.Machine
end

