-- ==== Sys2Proof/Certificates/Slice0/Obligations.lean ====
section
/-! DEFINITION. The statements for the provers. Each docstring names the rule of spec/ it formalises. -/

open Sys2Proof Sys2Proof.Machine

/-! ## The decoder -/

/-- Decoding the encoder's word of any instruction, from its two bytes in memory order, gives the instruction back
(30_encoding.md R101, R104 to R112). The patterns are the spec's general knowledge (D4, log entry 7). -/
def Obligations.DecodeOfEncodeIsTheInstruction : Prop :=
  ∀ i : Instr, decodeWord (encode i) = .ok i ∧ decode [loByte (encode i), hiByte (encode i)] = .ok (i, [])

/-- The decoder drops no bit: what it answers for a word encodes to that word (30_encoding.md R123). -/
def Obligations.EncodeOfDecodeIsTheWord : Prop :=
  ∀ (w : Word) (i : Instr), decodeWord w = .ok i → encode i = w

/-- No word matches two rows, so the only match and the first match agree (30_encoding.md R103). The spec's own
inference from R118 (D38, log entries 7 and 14). -/
def Obligations.OpcodeRowsAreDisjoint : Prop :=
  (∀ (j k : Nat) (hj : j < opcodeTable.length) (hk : k < opcodeTable.length) (w : Word),
      (opcodeTable[j]).covers w = true → (opcodeTable[k]).covers w = true → j = k) ∧
    ∀ (r : OpcodeRow) (w : Word), r ∈ opcodeTable → r.covers w = true → decodeWord w = .ok (r.fields w)

/-- The words that decode to nothing are exactly those of 30_encoding.md R121, and a step that fetches one reports it
and does nothing but advance the pc (47_sys.md R311). The ranges are the spec's own inference from R118 (log entries 7
and 10). -/
def Obligations.UnmatchedWordsReportUnknownInstruction : Prop :=
  (∀ w : Word, Unmatched w ↔ decodeWord w = .error (.noMatch w)) ∧
    ∀ (s : State) (w : Word), s.run = .running → s.fetch = .ok w → Unmatched w →
      ∃ t, step s = .next t ∧ ReportsUnknown s t w

/-- The decoded record (10_state.md R48, 30_encoding.md R120, R126): none exactly for the unmatched words; else the pattern,
family and mnemonic of the row that covers the word, the mnemonic of the decoded instruction, exactly the operand slots of
R120 in its order, the TOC target of R113 among them, and exactly the selectors of R117, each at its bit of the word. The
patterns and the bits of PRPO, DEC and INC are the spec's general knowledge (D4, D6; log entry 7), the target from the
advanced pc is C4 of 90_conflicts.md, the ranges are the spec's own inference from R118. -/
def Obligations.DecodedRecordNamesTheRowAndItsSelectors : Prop :=
  ∀ w pc : Word,
    (decodedRecord w pc = none ↔ Unmatched w) ∧
    ∀ (i : Instr) (d : DecodedRecord), decodeWord w = .ok i → decodedRecord w pc = some d →
      (∃ r ∈ opcodeTable, r.covers w = true ∧ d.opcode = r.pattern ∧ d.family = r.family ∧ d.mnemonic = r.mnemonic) ∧
      d.mnemonic = i.mnemonic ∧ d.operands = listedSlots w pc d.family d.mnemonic ∧ SelectorsAsListed w d

/-- One word of each family, written out from its format, decodes to the instruction it stands for. The patterns are the
spec's general knowledge (log entry 7). -/
def Obligations.SampleWordsDecode : Prop :=
  decodeWord 0b0001111111111111 = .ok (.bl 0x1FFF) ∧
  decodeWord 0b0011010000000101 = .ok (.bge 5) ∧
  decodeWord 0b0100001010001000 = .ok (.sub .word (.const 1) 0) ∧
  decodeWord 0b0100010001010001 = .ok (.dadd .byte (.reg 2) 1) ∧
  decodeWord 0b0100110000101111 = .ok (.mov .word 5 7) ∧
  decodeWord 0b0100110101001001 = .ok (.rrc .byte 1) ∧
  decodeWord 0b0100110110100001 = .ok (.setcc 1) ∧
  decodeWord 0b0101111100010001 = .ok (.st ⟨true, true, false⟩ .word 2 1) ∧
  decodeWord 0b0110000110100001 = .ok (.movl 0x34 1) ∧
  decodeWord 0b1011111110001010 = .ok (.ldr 0x7F .word 1 2) ∧
  decodeWord 0b1100000111010001 = .ok (.str 3 .byte 2 1)

/-! ## The register file and the status word -/

/-- The register-file laws of 10_state.md R34, and that a write touches no other register and nothing else. -/
def Obligations.RegisterWriteLaws : Prop :=
  ∀ (s : State) (r : RegIdx) (v : Word) (h : Bool),
    (s.writeReg r v false h).reg r = v ∧
    loByte ((s.writeReg r v true false).reg r) = loByte v ∧
    hiByte ((s.writeReg r v true false).reg r) = hiByte (s.reg r) ∧
    hiByte ((s.writeReg r v true true).reg r) = loByte v ∧
    loByte ((s.writeReg r v true true).reg r) = loByte (s.reg r) ∧
    ∀ b, OnlyRegs s (s.writeReg r v b h) [r]

/-- The four flags that update_flags leaves, in arithmetic on the masked values, and the PSW bits it keeps (10_state.md R43).
Where the override input of status_word_update is given, as DADD and RRC give it, C is the override, and Z, N, V and the
kept bits are as without it (R45, R52; 90_conflicts.md C6). Masking src and dst is the spec's decision D12 (log entry 14). -/
def Obligations.UpdateFlagsComputesTheFourFlags : Prop :=
  ∀ (p : Word) (result src dst : Nat) (w : Width) (isSub : Bool) (cOverride : Option Bool),
    let n := 2 ^ widthBits w
    let r := result % n
    let s := src % n
    let d := dst % n
    let q := updateFlags p result src dst w isSub cOverride
    (pswZ q = true ↔ r = 0) ∧
    (pswN q = true ↔ n ≤ 2 * r) ∧
    (pswC q = true ↔ match cOverride with
      | some c => c = true
      | none => if isSub then d < s else r < d) ∧
    (pswV q = true ↔ (n ≤ 2 * s ↔ n ≤ 2 * d) ∧ ¬(n ≤ 2 * r ↔ n ≤ 2 * d)) ∧
    ∀ i < 16, i ≠ 0 → i ≠ 1 → i ≠ 2 → i ≠ 4 → q.getLsbD i = p.getLsbD i

/-- The flags computed do not depend on the status word's prior contents (10_state.md R44). -/
def Obligations.FlagComputationIsPure : Prop :=
  ∀ (p q : Word) (result src dst : Nat) (w : Width) (isSub : Bool) (c : Option Bool),
    let p' := updateFlags p result src dst w isSub c
    let q' := updateFlags q result src dst w isSub c
    pswZ p' = pswZ q' ∧ pswN p' = pswN q' ∧ pswC p' = pswC q' ∧ pswV p' = pswV q'

/-- The AL source operand: a register, or an entry of the constant table with the spec's default values (30_encoding.md
R115), sign-extended from 8 bits in byte mode (43_al.md R220). The table's values are the spec's general knowledge (D5,
log entry 7). -/
def Obligations.AlSourceOperandForms : Prop :=
  (∀ (s : State) (r : RegIdx), s.alSource .word (.reg r) = s.reg r) ∧
  (∀ (s : State) (i : Fin 8), s.alSource .word (.const i) = s.cfg.constTable.get i) ∧
  (∀ (s : State) (src : AlSrc), s.alSource .byte src = (loByte (s.alSource .word src)).signExtend 16) ∧
  (∀ i : Fin 8, Config.reference.constTable.get i = [0, 1, 2, 4, 8, 16, 32, 0xFFFF].getD i.val 0)

/-! ## RIN -/

/-- MOVL (41_rin.md R171). -/
def Obligations.MovlReplacesTheLowByte : Prop :=
  ∀ (b : Byte) (d : RegIdx) (s : State),
    EncodedAs (.movl b d) (0x6000 + b.toNat * 8 + d.val) 0xF800 ∧
    ∃ t, exec (.movl b d) s = .next t ∧ loByte (t.reg d) = b ∧ hiByte (t.reg d) = hiByte (s.reg d) ∧ OnlyRegs s t [d]

/-- MOVLZ (41_rin.md R172). -/
def Obligations.MovlzZeroesTheHighByte : Prop :=
  ∀ (b : Byte) (d : RegIdx) (s : State),
    EncodedAs (.movlz b d) (0x6800 + b.toNat * 8 + d.val) 0xF800 ∧
    ∃ t, exec (.movlz b d) s = .next t ∧ (t.reg d).toNat = b.toNat ∧ OnlyRegs s t [d]

/-- MOVLS (41_rin.md R173). -/
def Obligations.MovlsSetsTheHighByte : Prop :=
  ∀ (b : Byte) (d : RegIdx) (s : State),
    EncodedAs (.movls b d) (0x7000 + b.toNat * 8 + d.val) 0xF800 ∧
    ∃ t, exec (.movls b d) s = .next t ∧ (t.reg d).toNat = 0xFF00 + b.toNat ∧ OnlyRegs s t [d]

/-- MOVH (41_rin.md R174). -/
def Obligations.MovhReplacesTheHighByte : Prop :=
  ∀ (b : Byte) (d : RegIdx) (s : State),
    EncodedAs (.movh b d) (0x7800 + b.toNat * 8 + d.val) 0xF800 ∧
    ∃ t, exec (.movh b d) s = .next t ∧ hiByte (t.reg d) = b ∧ loByte (t.reg d) = loByte (s.reg d) ∧ OnlyRegs s t [d]

/-! ## AL -/

/-- ADD and ADDC (43_al.md R222, R223). -/
def Obligations.AddAndAddcWriteTheSum : Prop :=
  ∀ (w : Width) (src : AlSrc) (d : RegIdx) (s : State),
    let x := (s.reg d).toNat
    let y := (s.alSource w src).toNat
    EncodedAs (.add w src d) (0x4000 + alSrcNumber src + wbNumber w + d.val) 0xFF00 ∧
    EncodedAs (.addc w src d) (0x4100 + alSrcNumber src + wbNumber w + d.val) 0xFF00 ∧
    (∃ t, exec (.add w src d) s = .next t ∧ AlWrites s t w src d (x + y) false) ∧
    ∃ t, exec (.addc w src d) s = .next t ∧ AlWrites s t w src d (x + y + bitNumber (pswC s.psw)) false

/-- SUB, SUBC and CMP add the two's complement of the source; CMP writes nothing back (43_al.md R224, R225, R227).
Decisions D13 and D14 of the spec (log entry 14). -/
def Obligations.SubSubcAndCmpSubtract : Prop :=
  ∀ (w : Width) (src : AlSrc) (d : RegIdx) (s : State),
    let x := (s.reg d).toNat
    let minus := (65536 - (s.alSource w src).toNat) % 65536
    EncodedAs (.sub w src d) (0x4200 + alSrcNumber src + wbNumber w + d.val) 0xFF00 ∧
    EncodedAs (.subc w src d) (0x4300 + alSrcNumber src + wbNumber w + d.val) 0xFF00 ∧
    EncodedAs (.cmp w src d) (0x4500 + alSrcNumber src + wbNumber w + d.val) 0xFF00 ∧
    (∃ t, exec (.sub w src d) s = .next t ∧ AlWrites s t w src d (x + minus) true) ∧
    (∃ t, exec (.subc w src d) s = .next t ∧ AlWrites s t w src d (x + minus + bitNumber (pswC s.psw)) true) ∧
    ∃ t, exec (.cmp w src d) s = .next t ∧ AlTests s t w src d (x + minus) true

/-- DADD digit by digit: a carry chain `c`, each digit corrected when its sum exceeds 9, the last carry in C, and Z, N
and V from update_flags on the result (43_al.md R226). Decision D15 of the spec (log entry 14). -/
def Obligations.DaddAddsDigitByDigit : Prop :=
  ∀ (w : Width) (src : AlSrc) (d : RegIdx) (s : State),
    EncodedAs (.dadd w src d) (0x4400 + alSrcNumber src + wbNumber w + d.val) 0xFF00 ∧
    ∃ (t : State) (c : Nat → Bool) (r : Nat),
      exec (.dadd w src d) s = .next t ∧ c 0 = pswC s.psw ∧
      (∀ i < bcdDigits w,
        let sum := bcdDigit (s.reg d).toNat i + bcdDigit (s.alSource w src).toNat i + bitNumber (c i)
        c (i + 1) = decide (sum > 9) ∧ bcdDigit r i = if sum > 9 then (sum + 6) % 16 else sum) ∧
      r < 16 ^ bcdDigits w ∧
      WrittenBack t (s.reg d) w d r ∧
      t.psw = updateFlags s.psw r (s.alSource w src).toNat (s.reg d).toNat w false (some (c (bcdDigits w))) ∧
      OnlyRegsAndFlags s t [d]

/-- On operands whose digits are all decimal, DADD is decimal addition with carry in and carry out. Rests on decision
D15 of the spec (log entry 14). -/
def Obligations.DaddIsDecimalAdditionOnBcdOperands : Prop :=
  ∀ (w : Width) (src : AlSrc) (d : RegIdx) (s t : State),
    (∀ i < bcdDigits w, bcdDigit (s.reg d).toNat i ≤ 9 ∧ bcdDigit (s.alSource w src).toNat i ≤ 9) →
    exec (.dadd w src d) s = .next t →
      (∀ i < bcdDigits w, bcdDigit (t.reg d).toNat i ≤ 9) ∧
      bcdValue (t.reg d).toNat (bcdDigits w) + bitNumber (pswC t.psw) * 10 ^ bcdDigits w =
        bcdValue (s.reg d).toNat (bcdDigits w) + bcdValue (s.alSource w src).toNat (bcdDigits w) + bitNumber (pswC s.psw)

/-- XOR, AND and OR (43_al.md R228, R229, R230). That OR leaves C clear is the spec's own inference from 10_state.md R43
(R230: "which is always 0 because d | s ≥ d"). -/
def Obligations.XorAndOrCombineBitwise : Prop :=
  ∀ (w : Width) (src : AlSrc) (d : RegIdx) (s : State),
    let x := (s.reg d).toNat
    let y := (s.alSource w src).toNat
    EncodedAs (.xor w src d) (0x4600 + alSrcNumber src + wbNumber w + d.val) 0xFF00 ∧
    EncodedAs (.and w src d) (0x4700 + alSrcNumber src + wbNumber w + d.val) 0xFF00 ∧
    EncodedAs (.or w src d) (0x4800 + alSrcNumber src + wbNumber w + d.val) 0xFF00 ∧
    (∃ t, exec (.xor w src d) s = .next t ∧ AlWrites s t w src d (x ^^^ y) false) ∧
    (∃ t, exec (.and w src d) s = .next t ∧ AlWrites s t w src d (x &&& y) false) ∧
    ∃ t, exec (.or w src d) s = .next t ∧ AlWrites s t w src d (x ||| y) false ∧ pswC t.psw = false

/-- BIT, BIC and BIS act on bit number `y` of the destination, and on no bit where `y` is 16 or more (43_al.md R231,
R232, R233, with `bitmask` of R221). Decision D16 of the spec (log entry 9). -/
def Obligations.BitBicAndBisActOnOneBit : Prop :=
  ∀ (w : Width) (src : AlSrc) (d : RegIdx) (s : State),
    let x := (s.reg d).toNat
    let y := (s.alSource w src).toNat
    let bit := if y < 16 then 2 ^ y else 0
    EncodedAs (.bit w src d) (0x4900 + alSrcNumber src + wbNumber w + d.val) 0xFF00 ∧
    EncodedAs (.bic w src d) (0x4A00 + alSrcNumber src + wbNumber w + d.val) 0xFF00 ∧
    EncodedAs (.bis w src d) (0x4B00 + alSrcNumber src + wbNumber w + d.val) 0xFF00 ∧
    (∃ t, exec (.bit w src d) s = .next t ∧ AlTests s t w src d (x &&& bit) false) ∧
    (∃ t, exec (.bic w src d) s = .next t ∧ AlWrites s t w src d (x &&& (65535 - bit)) false) ∧
    ∃ t, exec (.bis w src d) s = .next t ∧ AlWrites s t w src d (x ||| bit) false ∧ pswC t.psw = false

/-! ## REX -/

/-- MOV (44_rex.md R260). Byte mode: decision D26 of the spec (log entry 14). -/
def Obligations.MovCopiesARegister : Prop :=
  ∀ (w : Width) (a d : RegIdx) (s : State),
    EncodedAs (.mov w a d) (0x4C00 + wbNumber w + a.val * 8 + d.val) 0xFF80 ∧
    ∃ t, exec (.mov w a d) s = .next t ∧ WrittenBack t (s.reg d) w d (s.reg a).toNat ∧ OnlyRegs s t [d]

/-- SWAP exchanges the two registers, the pc among them, and leaves a register swapped with itself alone (44_rex.md R261,
R262). -/
def Obligations.SwapExchangesTwoRegisters : Prop :=
  ∀ (a d : RegIdx) (s : State),
    EncodedAs (.swap a d) (0x4C80 + a.val * 8 + d.val) 0xFFC0 ∧
    ∃ t, exec (.swap a d) s = .next t ∧ t.reg a = s.reg d ∧ t.reg d = s.reg a ∧ OnlyRegs s t [a, d]

/-! ## SO -/

/-- SRA halves the operand as a signed number of the operation width (45_so.md R271). Flags: decision D17 of the spec
(log entry 14). -/
def Obligations.SraShiftsRightKeepingTheSign : Prop :=
  ∀ (w : Width) (d : RegIdx) (s : State),
    EncodedAs (.sra w d) (0x4D00 + wbNumber w + d.val) 0xFFB8 ∧
    ∃ t, exec (.sra w d) s = .next t ∧ pswV t.psw = false ∧
      SoWrites s t w d (match w with
        | .word => ((s.reg d).sshiftRight 1).toNat
        | .byte => ((loByte (s.reg d)).sshiftRight 1).toNat) none

/-- RRC shifts the carry in at the top and the lowest bit out into C (45_so.md R272). Flags: decisions D17 and D18 of
the spec (log entry 14). -/
def Obligations.RrcRotatesThroughCarry : Prop :=
  ∀ (w : Width) (d : RegIdx) (s : State),
    EncodedAs (.rrc w d) (0x4D08 + wbNumber w + d.val) 0xFFB8 ∧
    ∃ t, exec (.rrc w d) s = .next t ∧ pswC t.psw = (s.reg d).getLsbD 0 ∧
      SoWrites s t w d (match w with
        | .word => (s.reg d).toNat / 2 + bitNumber (pswC s.psw) * 32768
        | .byte => (s.reg d).toNat % 256 / 2 + bitNumber (pswC s.psw) * 128) (some ((s.reg d).getLsbD 0))

/-- COMP complements every bit of the operation width, so V is always set (45_so.md R273). Flags: decision D17 of the
spec (log entry 14). -/
def Obligations.CompComplements : Prop :=
  ∀ (w : Width) (d : RegIdx) (s : State),
    EncodedAs (.comp w d) (0x4D10 + wbNumber w + d.val) 0xFFB8 ∧
    ∃ t, exec (.comp w d) s = .next t ∧ pswV t.psw = true ∧
      SoWrites s t w d (match w with
        | .word => (~~~(s.reg d)).toNat
        | .byte => (~~~(loByte (s.reg d))).toNat) none

/-- SWPB and SXT act on the full word; with W/B = 1 their words match no row (45_so.md R274, R275). Flags: decision D17
of the spec (log entry 14). -/
def Obligations.SwpbAndSxtActOnTheFullWord : Prop :=
  ∀ (d : RegIdx) (s : State),
    EncodedAs (.swpb d) (0x4D18 + d.val) 0xFFF8 ∧
    EncodedAs (.sxt d) (0x4D20 + d.val) 0xFFF8 ∧
    Unmatched (BitVec.ofNat 16 (0x4D58 + d.val)) ∧ Unmatched (BitVec.ofNat 16 (0x4D60 + d.val)) ∧
    (∃ t, exec (.swpb d) s = .next t ∧ loByte (t.reg d) = hiByte (s.reg d) ∧ hiByte (t.reg d) = loByte (s.reg d) ∧
      pswV t.psw = ((s.reg d).getLsbD 7 ^^ (s.reg d).getLsbD 15) ∧ SoWrites s t .word d (t.reg d).toNat none) ∧
    ∃ t, exec (.sxt d) s = .next t ∧ t.reg d = (loByte (s.reg d)).signExtend 16 ∧ SoWrites s t .word d (t.reg d).toNat none

/-! ## TOC -/

/-- BL (46_toc.md R291). Its word with offset 0 is the sentinel: a step that fetches it halts and links nothing
(30_encoding.md R122, 40_cycle.md R151). That exec gives the term bl 0, which no step executes, the meaning of every other
offset is the model's choice (log entry 15); the pc advanced before the halt is decision D24 of the spec (R155, log entry
14). -/
def Obligations.BlLinksAndJumps : Prop :=
  (∀ (off : BitVec 13) (s : State),
    EncodedAs (.bl off) off.toNat 0xE000 ∧
    ∃ t, exec (.bl off) s = .next t ∧ t.reg lrIdx = s.pc ∧ t.pc = targetOf s.pc off.toInt ∧ OnlyRegs s t [lrIdx, pcIdx]) ∧
  ∀ s : State, s.run = .running → s.fetch = .ok (encode (.bl 0)) →
    ∃ t, step s = .next t ∧ t.run = .halted .clean ∧ t.reg lrIdx = s.reg lrIdx ∧ t.pc = s.pc + 2

/-- The eight branches of format BR, each with its condition (46_toc.md R292 to R299). -/
def Obligations.BranchesTestTheirConditions : Prop :=
  ∀ (off : BitVec 10) (s : State),
    let z := pswZ s.psw = true
    let c := pswC s.psw = true
    let n := pswN s.psw = true
    let v := pswV s.psw = true
    (EncodedAs (.beq off) (0x2000 + off.toNat) 0xFC00 ∧ BranchesWhen (.beq off) z off s) ∧
    (EncodedAs (.bne off) (0x2400 + off.toNat) 0xFC00 ∧ BranchesWhen (.bne off) (¬z) off s) ∧
    (EncodedAs (.bc off) (0x2800 + off.toNat) 0xFC00 ∧ BranchesWhen (.bc off) c off s) ∧
    (EncodedAs (.bnc off) (0x2C00 + off.toNat) 0xFC00 ∧ BranchesWhen (.bnc off) (¬c) off s) ∧
    (EncodedAs (.bn off) (0x3000 + off.toNat) 0xFC00 ∧ BranchesWhen (.bn off) n off s) ∧
    (EncodedAs (.bge off) (0x3400 + off.toNat) 0xFC00 ∧ BranchesWhen (.bge off) (n ∧ v) off s) ∧
    (EncodedAs (.blt off) (0x3800 + off.toNat) 0xFC00 ∧ BranchesWhen (.blt off) (¬(n ↔ v)) off s) ∧
    (EncodedAs (.bra off) (0x3C00 + off.toNat) 0xFC00 ∧ BranchesWhen (.bra off) True off s)

/-! ## SYS -/

/-- Each SYS instruction completes with the report of its own word and no other effect (47_sys.md R310). Decision D25 of
the spec (log entry 10). -/
def Obligations.SysInstructionsOnlyReport : Prop :=
  (∀ (s : State) (a3 : BitVec 3) (a4 : BitVec 4) (a5 : BitVec 5) (a10 : BitVec 10),
    exec (.setpri a3) s = .next { s with report := .unknownInstruction (encode (.setpri a3)) } ∧
    exec (.svc a4) s = .next { s with report := .unknownInstruction (encode (.svc a4)) } ∧
    exec (.setcc a5) s = .next { s with report := .unknownInstruction (encode (.setcc a5)) } ∧
    exec (.clrcc a5) s = .next { s with report := .unknownInstruction (encode (.clrcc a5)) } ∧
    exec (.cex a10) s = .next { s with report := .unknownInstruction (encode (.cex a10)) }) ∧
  (∀ (a3 : BitVec 3) (a4 : BitVec 4) (a5 : BitVec 5) (a10 : BitVec 10),
    EncodedAs (.setpri a3) (0x4D80 + a3.toNat) 0xFFF8 ∧ EncodedAs (.svc a4) (0x4D90 + a4.toNat) 0xFFF0 ∧
    EncodedAs (.setcc a5) (0x4DA0 + a5.toNat) 0xFFE0 ∧ EncodedAs (.clrcc a5) (0x4DC0 + a5.toNat) 0xFFE0 ∧
    EncodedAs (.cex a10) (0x5000 + a10.toNat) 0xFC00) ∧
  ∀ (s : State) (w : Word), s.run = .running → s.fetch = .ok w → SysWord w → ∃ t, step s = .next t ∧ ReportsUnknown s t w

/-! ## MEM -/

/-- The bound check (20_memory.md R73, 90_conflicts.md C5), the second byte's address under each setting of HIGH_BYTE_ADDR
(R77; decision D8 leaves the setting OPEN, log entries 1 and 6), and the byte order of a word read (R78, R81; low byte
first is decision D11, log entry 14). -/
def Obligations.BusTransfersAreLittleEndianAndBounded : Prop :=
  (∀ a : Word, nextAddr .wrap16 a = (a.toNat + 1) % 65536 ∧ nextAddr .linear a = a.toNat + 1) ∧
  (∀ (s : State) (a : Nat) (b : Byte),
    (a < s.cfg.memSize → s.busRead a = .ok (s.byteAt a) ∧ s.busWrite a b = .ok (s.setByte a b)) ∧
    (¬a < s.cfg.memSize → s.busRead a = .error (.addressOutOfRange a) ∧ s.busWrite a b = .error (.addressOutOfRange a))) ∧
  (∀ (s : State) (w : Width) (a v : Word) (k : Nat),
    ¬k < s.cfg.memSize → (s.memWrite w a v).1.byteAt k = s.byteAt k) ∧
  ∀ (s : State) (a : Word), TransferInRange s .word a →
    s.memRead .word a = .ok (wordOfBytes (s.byteAt a.toNat) (s.byteAt (s.next a)))

/-- A word stored is the word loaded from the same address, its bytes are what byte loads see, and a later fetch sees it
(20_memory.md R84, R91). The byte order of the fetch is R82, the spec's decision D3 (log entry 14). -/
def Obligations.StoredWordReadsBack : Prop :=
  ∀ (s : State) (a v : Word), TransferInRange s .word a →
    let t := (s.memWrite .word a v).1
    (s.memWrite .word a v).2 = none ∧
    t.memRead .word a = .ok v ∧
    t.byteAt a.toNat = loByte v ∧ t.byteAt (s.next a) = hiByte v ∧
    (∀ k, k ≠ a.toNat → k ≠ s.next a → t.byteAt k = s.byteAt k) ∧
    (t.setPc a).fetch = .ok v

/-- LD with every byte in range (42_mem.md R192 to R194, R197). The address register's final value wins over the loaded
value in the adjusting post forms with S = D, and loses to it in the pre forms. Decisions D21, D22 and D26 of the spec
(log entries 8 and 14). -/
def Obligations.LdLoadsAndAdjusts : Prop :=
  ∀ (m : AdjustMode) (w : Width) (a d : RegIdx) (s : State),
    let ea := s.indirectEa m w a
    let postWins := m.pre = false ∧ (m.inc = true ∨ m.dec = true) ∧ a = d
    EncodedAs (.ld m w a d) (0x5800 + bitNumber m.pre * 512 + bitNumber m.dec * 256 + bitNumber m.inc * 128 + wbNumber w
      + a.val * 8 + d.val) 0xFC00 ∧
    ea = (if m.pre then adjustedBy m w (s.reg a) else s.reg a) ∧
    (TransferInRange s w ea →
      ∃ t, exec (.ld m w a d) s = .next t ∧ OnlyRegs s t [a, d] ∧
        (postWins ∨ a ≠ d → t.reg a = adjustedBy m w (s.reg a)) ∧
        (¬postWins → loByte (t.reg d) = s.byteAt ea.toNat ∧
          hiByte (t.reg d) = match w with
            | .word => s.byteAt (s.next ea)
            | .byte => hiByte (if a = d then ea else s.reg d)))

/-- LD with a byte out of range: the report carries the first failing address, a pre-adjust stays, nothing is loaded
(42_mem.md R196). Decision D23 of the spec (log entry 14). -/
def Obligations.LdAbortsOutOfRange : Prop :=
  ∀ (m : AdjustMode) (w : Width) (a d : RegIdx) (s : State),
    let ea := s.indirectEa m w a
    ¬TransferInRange s w ea →
      ∃ t, exec (.ld m w a d) s = .next t ∧ t.report = .executionFailure (.addressOutOfRange (firstFailing s ea)) ∧
        (∀ r, t.reg r = if r = a then ea else s.reg r) ∧ t.psw = s.psw ∧ SameMemory s t ∧ t.run = s.run ∧ t.cfg = s.cfg

/-- ST with every byte in range (42_mem.md R193, R194, R198). Decisions D21 and D22 of the spec (log entries 8 and 14).
-/
def Obligations.StStoresAndAdjusts : Prop :=
  ∀ (m : AdjustMode) (w : Width) (a d : RegIdx) (s : State),
    let ea := s.indirectEa m w d
    let v := if a = d then ea else s.reg a
    EncodedAs (.st m w a d) (0x5C00 + bitNumber m.pre * 512 + bitNumber m.dec * 256 + bitNumber m.inc * 128 + wbNumber w
      + a.val * 8 + d.val) 0xFC00 ∧
    ea = (if m.pre then adjustedBy m w (s.reg d) else s.reg d) ∧
    (TransferInRange s w ea →
      ∃ t, exec (.st m w a d) s = .next t ∧
        t.byteAt ea.toNat = loByte v ∧ (w = .word → t.byteAt (s.next ea) = hiByte v) ∧
        (∀ k, k ∉ storedBytes s w ea → t.byteAt k = s.byteAt k) ∧
        t.reg d = adjustedBy m w (s.reg d) ∧ SameRegsBut s t [d] ∧ t.psw = s.psw ∧ SameControl s t)

/-- ST with a byte out of range: a pre-adjust and the first byte of a word stay, no byte out of range changes (42_mem.md
R196). Decision D23 of the spec (log entry 14). -/
def Obligations.StAbortsOutOfRange : Prop :=
  ∀ (m : AdjustMode) (w : Width) (a d : RegIdx) (s : State),
    let ea := s.indirectEa m w d
    let v := if a = d then ea else s.reg a
    ¬TransferInRange s w ea →
      ∃ t, exec (.st m w a d) s = .next t ∧ t.report = .executionFailure (.addressOutOfRange (firstFailing s ea)) ∧
        (∀ k, t.byteAt k = if k = ea.toNat ∧ ea.toNat < s.cfg.memSize then loByte v else s.byteAt k) ∧
        (∀ r, t.reg r = if r = d then ea else s.reg r) ∧ t.psw = s.psw ∧ t.run = s.run ∧ t.cfg = s.cfg

/-- LDR: the scaled displacement, the load in range and the abort out of range (42_mem.md R195, R196, R199). Decisions
D9 and D26 of the spec (log entry 14). -/
def Obligations.LdrLoadsIndexed : Prop :=
  ∀ (v : BitVec 7) (w : Width) (a d : RegIdx) (s : State),
    let ea := s.indexedEa v w a
    EncodedAs (.ldr v w a d) (0x8000 + v.toNat * 128 + wbNumber w + a.val * 8 + d.val) 0xC000 ∧
    ea = BitVec.ofInt 16 ((s.reg a).toNat + v.toInt * (widthStep w).toNat) ∧
    (TransferInRange s w ea →
      ∃ t, exec (.ldr v w a d) s = .next t ∧ OnlyRegs s t [d] ∧ loByte (t.reg d) = s.byteAt ea.toNat ∧
        hiByte (t.reg d) = match w with
          | .word => s.byteAt (s.next ea)
          | .byte => hiByte (s.reg d)) ∧
    (¬TransferInRange s w ea →
      exec (.ldr v w a d) s = .next { s with report := .executionFailure (.addressOutOfRange (firstFailing s ea)) })

/-- STR: the scaled displacement, the store in range and the abort out of range (42_mem.md R195, R196, R200). Decisions
D9 and D23 of the spec (log entry 14). -/
def Obligations.StrStoresIndexed : Prop :=
  ∀ (v : BitVec 7) (w : Width) (a d : RegIdx) (s : State),
    let ea := s.indexedEa v w d
    EncodedAs (.str v w a d) (0xC000 + v.toNat * 128 + wbNumber w + a.val * 8 + d.val) 0xC000 ∧
    ea = BitVec.ofInt 16 ((s.reg d).toNat + v.toInt * (widthStep w).toNat) ∧
    (TransferInRange s w ea →
      ∃ t, exec (.str v w a d) s = .next t ∧
        t.byteAt ea.toNat = loByte (s.reg a) ∧ (w = .word → t.byteAt (s.next ea) = hiByte (s.reg a)) ∧
        (∀ k, k ∉ storedBytes s w ea → t.byteAt k = s.byteAt k) ∧
        SameRegsBut s t [] ∧ t.psw = s.psw ∧ SameControl s t) ∧
    (¬TransferInRange s w ea →
      ∃ t, exec (.str v w a d) s = .next t ∧ t.report = .executionFailure (.addressOutOfRange (firstFailing s ea)) ∧
        (∀ k, t.byteAt k = if k = ea.toNat ∧ ea.toNat < s.cfg.memSize then loByte (s.reg a) else s.byteAt k) ∧
        SameRegsBut s t [] ∧ t.psw = s.psw ∧ t.run = s.run ∧ t.cfg = s.cfg)

/-! ## The step -/

/-- A step whose fetched word decodes to a well-formed instruction runs that instruction in the state with the pc
advanced by 2 and the report cleared (10_state.md R38, 40_cycle.md R152). R38 is the spec's own inference; the wrap is
decision D9 (log entry 14). -/
def Obligations.StepRunsTheDecodedInstruction : Prop :=
  ∀ (s : State) (w : Word) (i : Instr), s.run = .running → s.memRead .word s.pc = .ok w → decodeWord w = .ok i →
    i.wellFormed = true →
    ∃ u, step s = exec i u ∧ u.pc = s.pc + 2 ∧ u.report = .none ∧ SameRegsBut s u [pcIdx] ∧ u.psw = s.psw ∧
      u.mem = s.mem ∧ u.run = s.run ∧ u.cfg = s.cfg

/-- The sentinel word halts the run cleanly after the pc's advance, with no other effect (40_cycle.md R151, R155). The
advance before the test is decision D24 of the spec (log entry 14). -/
def Obligations.SentinelHaltsCleanly : Prop :=
  ∀ s : State, s.run = .running → s.fetch = .ok 0 →
    ∃ t, step s = .next t ∧ t.run = .halted .clean ∧ t.report = .halted .clean ∧ t.pc = s.pc + 2 ∧
      SameRegsBut s t [pcIdx] ∧ t.psw = s.psw ∧ SameMemory s t ∧ t.cfg = s.cfg

/-- A fetch with a byte out of range halts the run with the failing address; the pc is not advanced and nothing else
changes (40_cycle.md R153). The pc not advanced is decision D24 of the spec (log entry 14). -/
def Obligations.FetchFailureHalts : Prop :=
  ∀ s : State, s.run = .running → ¬TransferInRange s .word s.pc →
    ∃ t, step s = .next t ∧ t.run = .halted (.fetchFault (firstFailing s s.pc)) ∧
      t.report = .halted (.fetchFault (firstFailing s s.pc)) ∧ SameRegsBut s t [] ∧ t.psw = s.psw ∧ SameMemory s t ∧
      t.cfg = s.cfg

/-- A step from Running completes with report none, completes with a recoverable report, or halts on the sentinel or on a
fetch failure; a halted core takes no step (00_scope.md R19). -/
def Obligations.StepHasOneOfThreeOutcomes : Prop :=
  (∀ s : State, s.run = .running → ∃ t, step s = .next t ∧
    ((t.run = .running ∧ t.report = .none) ∨
     (t.run = .running ∧ ((∃ w, t.report = .unknownInstruction w) ∨ ∃ e, t.report = .executionFailure e)) ∨
     (t.run = .halted .clean ∧ s.fetch = .ok 0) ∨
     ∃ a, t.run = .halted (.fetchFault a) ∧ s.fetch = .error (.addressOutOfRange a))) ∧
  ∀ (s : State) (k : HaltKind), s.run = .halted k → ∀ t, step s ≠ .next t

/-- A step reports UnknownInstruction exactly when the fetched word matches no row or a SYS row, and the report carries
that word (60_exceptions.md R320). Rests on decision D25 of the spec (log entry 10). -/
def Obligations.UnknownInstructionExactlyOnUnmatchedAndSysWords : Prop :=
  ∀ (s t : State) (w : Word), s.run = .running → s.fetch = .ok w → step s = .next t →
    ((∃ x, t.report = .unknownInstruction x) ↔ Unmatched w ∨ SysWord w) ∧
    ∀ x, t.report = .unknownInstruction x → x = w

/-- With 65536 bytes of memory and wrap16 no access is ever out of range (42_mem.md R196, 60_exceptions.md R322). The
spec's own inference. -/
def Obligations.NoAccessFailsInTheReferenceMemory : Prop :=
  ∀ s : State, s.cfg.memSize = 65536 → s.cfg.highByteAddr = .wrap16 → s.run = .running →
    ∃ t w, s.fetch = .ok w ∧ step s = .next t ∧ (∀ e, t.report ≠ .executionFailure e) ∧ ∀ a, t.run ≠ .halted (.fetchFault a)

/-- A step changes memory only when it runs ST or STR (20_memory.md R85, 42_mem.md R201). -/
def Obligations.OnlyStoresChangeMemory : Prop :=
  ∀ (s t : State) (a : Nat), step s = .next t → t.byteAt a ≠ s.byteAt a →
    ∃ w, s.fetch = .ok w ∧ ((∃ m x p q, decodeWord w = .ok (.st m x p q)) ∨ ∃ v x p q, decodeWord w = .ok (.str v x p q))

/-- A step changes the status word only when it runs an AL or SO instruction (10_state.md R45). -/
def Obligations.OnlyAlAndSoChangeThePsw : Prop :=
  ∀ s t : State, step s = .next t → t.psw ≠ s.psw →
    ∃ w r, s.fetch = .ok w ∧ r ∈ opcodeTable ∧ r.covers w = true ∧ (r.family = .al ∨ r.family = .so)

/-! ## Invariants of the machine -/

/-- The invariant holds after reset. The empty canonical memory is the model's choice (log entry 4); the other two
values are the spec's. -/
def Obligations.ResetSatisfiesTheInvariant : Prop := State.reset.Inv ∧ State.reset.psw = 0 ∧ State.reset.run = .running

/-- Every step keeps the invariant (memory canonical and inside its bound, inert PSW bits zero), and no step writes the
parameters. The canonical form is the model's choice (log entry 4), the parameters in the state too (log entry 1). -/
def Obligations.StepKeepsTheInvariant : Prop :=
  ∀ s t : State, s.Inv → step s = .next t → t.Inv ∧ t.cfg = s.cfg

/-- No step writes a PSW bit outside C, Z, N and V, whatever they hold (10_state.md R46, R47; 47_sys.md R313). Decision
D30 of the spec (log entry 14). -/
def Obligations.StepLeavesInertPswBits : Prop :=
  ∀ s t : State, step s = .next t → ∀ i < 16, i ≠ 0 → i ≠ 1 → i ≠ 2 → i ≠ 4 → t.psw.getLsbD i = s.psw.getLsbD i

/-- No step reads a PSW bit outside C, Z, N and V: two states that differ only there step alike and differ only there
(10_state.md R46, R47). Decision D30 of the spec (log entry 14). -/
def Obligations.InertPswBitsHaveNoEffect : Prop :=
  ∀ (s t : State) (q : Word),
    pswC q = pswC s.psw → pswZ q = pswZ s.psw → pswN q = pswN s.psw → pswV q = pswV s.psw → step s = .next t →
    ∃ t', step (s.setPsw q) = .next t' ∧ t' = t.setPsw t'.psw ∧ pswInert t'.psw = pswInert q ∧
      pswC t'.psw = pswC t.psw ∧ pswZ t'.psw = pswZ t.psw ∧ pswN t'.psw = pswN t.psw ∧ pswV t'.psw = pswV t.psw

/-! ## The host's operations -/

/-- write_block and dump (20_memory.md R92): which bytes are written or returned, where each stops, and that the registers
and the PSW stay. The model's choices of log entry 16: dump's maximum span is an argument (93_implementation_defined.md
I11), and the condition it reports is AddressOutOfRange of the first address out of range. -/
def Obligations.HostMemoryOperations : Prop :=
  (∀ (s : State) (addr : Nat) (bytes : List Byte),
    let t := (s.writeBlock addr bytes).1
    (∀ a, t.byteAt a = if addr ≤ a ∧ a < addr + bytes.length ∧ a < s.cfg.memSize then bytes.getD (a - addr) 0
      else s.byteAt a) ∧
    (s.writeBlock addr bytes).2 = (if bytes = [] ∨ addr + bytes.length ≤ s.cfg.memSize then none
      else some (.addressOutOfRange (max addr s.cfg.memSize))) ∧
    SameRegsBut s t [] ∧ t.psw = s.psw ∧ SameControl s t) ∧
  ∀ (s : State) (maxSpan addr length : Nat),
    let n := min length maxSpan
    let d := s.dump maxSpan addr length
    d.1.length = min n (s.cfg.memSize - addr) ∧
    (∀ i < d.1.length, d.1.getD i 0 = s.byteAt (addr + i)) ∧
    d.2 = (if n = 0 ∨ addr + n ≤ s.cfg.memSize then none else some (.addressOutOfRange (max addr s.cfg.memSize)))

/-- A record is accepted exactly when its sum and its checksum byte add to 0xFF modulo 256 (70_reset_and_hazards.md R356),
and a record that is not accepted has no effect but its report (R359). That this holds for records of every type, those
other than 0, 1 and 9 among them, is the model's choice (log entry 12). -/
def Obligations.ChecksumDecidesAcceptance : Prop :=
  (∀ r : SRecord, recordAccepted r = true ↔ (recordSum r + r.checksum.toNat) % 256 = 255) ∧
  (∀ r : SRecord, recordSum r = r.count.toNat + r.address.toNat / 256 + r.address.toNat % 256 +
    (r.data.map BitVec.toNat).sum) ∧
  ∀ (l : LoadState) (r : SRecord) (rest : List SRecord), recordAccepted r = false →
    l.applyRecord r = (l, .checksumMismatch) ∧
    (l.applyImage (r :: rest)).1 = (l.applyImage rest).1

/-- Every piece of state at the start of a run (70_reset_and_hazards.md R351, R360). The last S9 record winning is
decision D29, the order of records D36 of the spec (log entries 12 and 14). -/
def Obligations.BootSetsEveryPieceOfState : Prop :=
  ∀ (cfg : Config) (regInit : Vector Word 8) (startPc : Word) (image : List SRecord),
    let s := (State.boot cfg regInit startPc image).1
    (∀ r, r ≠ pcIdx → s.reg r = regInit.get r) ∧
    s.pc = (((image.filter fun r => recordAccepted r && r.type == 9).getLast?).map (·.address)).getD startPc ∧
    s.psw = 0 ∧ s.run = .running ∧ s.cfg = cfg ∧
    ∀ a, s.byteAt a = image.foldl (fun b r =>
      if recordAccepted r = true ∧ r.type = 1 ∧ r.address.toNat ≤ a ∧ a < r.address.toNat + r.data.length ∧ a < cfg.memSize
      then r.data.getD (a - r.address.toNat) 0 else b) (Config.memInit a)

/-- The state that booting any image gives satisfies the invariant. The canonical form is the model's choice (log entry
4). -/
def Obligations.BootSatisfiesTheInvariant : Prop :=
  ∀ (cfg : Config) (regInit : Vector Word 8) (startPc : Word) (image : List SRecord),
    (State.boot cfg regInit startPc image).1.Inv

/-- The load-and-dump property (70_reset_and_hazards.md R366), for every accepted S1 record that fits in memory. -/
def Obligations.LoadedRecordIsDumpedAndFetched : Prop :=
  ∀ (l : LoadState) (r : SRecord) (maxSpan : Nat),
    recordAccepted r = true → r.type = 1 → r.address.toNat + r.data.length ≤ l.core.cfg.memSize → r.data.length ≤ maxSpan →
    let l' := (l.applyRecord r).1
    (l.applyRecord r).2 = .none ∧
    l'.core.dump maxSpan r.address.toNat r.data.length = (r.data, none) ∧
    ∀ d₀ d₁ rest, r.address = 0 → r.data = d₀ :: d₁ :: rest → (l'.core.setPc 0).fetch = .ok (wordOfBytes d₀ d₁)
end

