-- ==== Sys2Proof/Laws/Bits.lean ====
section
/-! SUPPORT. Bytes of words, and the status word's bits after an update. -/

namespace Sys2Proof

@[simp] theorem loByte_wordOfBytes (lo hi : Byte) : loByte (wordOfBytes lo hi) = lo :=
  BitVec.extractLsb'_append_eq_right

@[simp] theorem hiByte_wordOfBytes (lo hi : Byte) : hiByte (wordOfBytes lo hi) = hi :=
  BitVec.extractLsb'_append_eq_left

@[simp] theorem wordOfBytes_lo_hi (w : Word) : wordOfBytes (loByte w) (hiByte w) = w := by
  apply BitVec.eq_of_getLsbD_eq
  intro i hi
  simp only [wordOfBytes, loByte, hiByte, BitVec.getLsbD_append, BitVec.getLsbD_extractLsb']
  by_cases h : i < 8
  · simp [h]
  · simp [h, show i - 8 < 8 by omega, show 8 + (i - 8) = i by omega]

theorem toNat_wordOfBytes (lo hi : Byte) : (wordOfBytes lo hi).toNat = hi.toNat * 256 + lo.toNat := by
  rw [wordOfBytes, BitVec.toNat_append, Nat.shiftLeft_eq, Nat.mul_comm, ← Nat.two_pow_add_eq_or_of_lt (i := 8) lo.isLt]

theorem toNat_loByte (w : Word) : (loByte w).toNat = w.toNat % 256 := by simp [loByte, BitVec.extractLsb'_toNat]

theorem toNat_hiByte (w : Word) : (hiByte w).toNat = w.toNat / 256 := by
  have := w.isLt
  simp only [hiByte, BitVec.extractLsb'_toNat, Nat.shiftRight_eq_div_pow]
  omega

end Sys2Proof

namespace Sys2Proof.Machine

@[simp] theorem loByte_mergeLow (old v : Word) : loByte (mergeLow old v) = loByte v := by simp [mergeLow]
@[simp] theorem hiByte_mergeLow (old v : Word) : hiByte (mergeLow old v) = hiByte old := by simp [mergeLow]
@[simp] theorem loByte_mergeHigh (old v : Word) : loByte (mergeHigh old v) = loByte old := by simp [mergeHigh]
@[simp] theorem hiByte_mergeHigh (old v : Word) : hiByte (mergeHigh old v) = loByte v := by simp [mergeHigh]

/-! ## The status word -/

theorem getLsbD_withFlags (p : Word) (f : Flags) (i : Nat) (hi : i < 16) :
    (withFlags p f).getLsbD i =
      if i = 0 then f.c else if i = 1 then f.z else if i = 2 then f.n else if i = 4 then f.v else p.getLsbD i := by
  obtain ⟨z, n, c, v⟩ := f
  interval_cases i <;> cases z <;> cases n <;> cases c <;> cases v <;> simp [withFlags, pswInert, flagBit]

@[simp] theorem pswC_withFlags (p : Word) (f : Flags) : pswC (withFlags p f) = f.c := by
  rw [pswC, getLsbD_withFlags _ _ _ (by decide)]; rfl
@[simp] theorem pswZ_withFlags (p : Word) (f : Flags) : pswZ (withFlags p f) = f.z := by
  rw [pswZ, getLsbD_withFlags _ _ _ (by decide)]; rfl
@[simp] theorem pswN_withFlags (p : Word) (f : Flags) : pswN (withFlags p f) = f.n := by
  rw [pswN, getLsbD_withFlags _ _ _ (by decide)]; rfl
@[simp] theorem pswV_withFlags (p : Word) (f : Flags) : pswV (withFlags p f) = f.v := by
  rw [pswV, getLsbD_withFlags _ _ _ (by decide)]; rfl

theorem getLsbD_pswInert (p : Word) (i : Nat) (hi : i < 16) :
    (pswInert p).getLsbD i = (decide (i ≠ 0 ∧ i ≠ 1 ∧ i ≠ 2 ∧ i ≠ 4) && p.getLsbD i) := by
  interval_cases i <;> simp [pswInert]

/-- Two status words have the same inert bits exactly when they agree on every bit outside C, Z, N and V. -/
theorem pswInert_eq_iff (p q : Word) :
    pswInert p = pswInert q ↔ ∀ i < 16, i ≠ 0 → i ≠ 1 → i ≠ 2 → i ≠ 4 → p.getLsbD i = q.getLsbD i := by
  constructor
  · intro h i hi h0 h1 h2 h4
    have := congrArg (BitVec.getLsbD · i) h
    rw [getLsbD_pswInert p i hi, getLsbD_pswInert q i hi] at this
    simpa only [ne_eq, h0, h1, h2, h4, not_false_eq_true, and_self, decide_true, Bool.true_and] using this
  · intro h
    apply BitVec.eq_of_getLsbD_eq
    intro i hi
    rw [getLsbD_pswInert p i hi, getLsbD_pswInert q i hi]
    by_cases hc : i ≠ 0 ∧ i ≠ 1 ∧ i ≠ 2 ∧ i ≠ 4
    · rw [h i hi hc.1 hc.2.1 hc.2.2.1 hc.2.2.2]
    · simp [hc]

@[simp] theorem pswInert_withFlags (p : Word) (f : Flags) : pswInert (withFlags p f) = pswInert p := by
  rw [pswInert_eq_iff]
  intro i hi h0 h1 h2 h4
  rw [getLsbD_withFlags p f i hi]
  simp only [h0, h1, h2, h4, if_false]

/-- Everything status_word_update does: Z, N and V are update_flags', C is its override where there is one, and the
inert bits stay. -/
theorem updateFlags_spec (p : Word) (result src dst : Nat) (w : Width) (isSub : Bool) (cOverride : Option Bool) :
    let f := computeFlags result src dst w isSub
    let q := updateFlags p result src dst w isSub cOverride
    pswZ q = f.z ∧ pswN q = f.n ∧ pswC q = cOverride.getD f.c ∧ pswV q = f.v ∧ pswInert q = pswInert p := by
  cases cOverride <;> simp [updateFlags]

end Sys2Proof.Machine
end

