-- ==== Sys2Proof/Laws/Decode.lean ====
section
/-! SUPPORT. The decoder's scan in plain arithmetic: which words each row covers, and `decodeWord` as one chain of range
tests. -/

namespace Sys2Proof

/-- Masking off the low `k` bits, as arithmetic. -/
theorem toNat_and_highMask (w : Word) (k : Nat) (hk : k ≤ 16) :
    (w &&& (BitVec.allOnes 16 <<< k)).toNat = w.toNat / 2 ^ k * 2 ^ k := by
  have h : w &&& (BitVec.allOnes 16 <<< k) = (w >>> k) <<< k := by
    apply BitVec.eq_of_getLsbD_eq
    intro i hi
    simp only [BitVec.getLsbD_and, BitVec.getLsbD_shiftLeft, BitVec.getLsbD_ushiftRight, BitVec.getLsbD_allOnes]
    by_cases hik : i < k
    · simp [hik]
    · simp [hik, hi, show k + (i - k) = i by omega, show i - k < 16 by omega]
  have hw := w.isLt
  have hle : w.toNat / 2 ^ k * 2 ^ k ≤ w.toNat := Nat.div_mul_le_self _ _
  rw [h, BitVec.toNat_shiftLeft, BitVec.toNat_ushiftRight, Nat.shiftRight_eq_div_pow, Nat.shiftLeft_eq,
    Nat.mod_eq_of_lt (by omega)]

/-- A row whose mask keeps the bits from `k` up covers the words whose high part is the pattern's. -/
theorem covers_high (r : OpcodeRow) (w : Word) (k p : Nat) (hk : k ≤ 16) (hm : r.mask = BitVec.allOnes 16 <<< k)
    (hp : r.pattern.toNat = p * 2 ^ k) : r.covers w = decide (w.toNat / 2 ^ k = p) := by
  have hpos : 0 < 2 ^ k := Nat.two_pow_pos k
  rw [OpcodeRow.covers, hm, Bool.eq_iff_iff, beq_iff_eq, decide_eq_true_iff, ← BitVec.toNat_inj,
    toNat_and_highMask w k hk, hp]
  exact ⟨fun h => Nat.eq_of_mul_eq_mul_right hpos h, fun h => by rw [h]⟩

/-- The SO rows that have a W/B bit: mask 0xFFB8. -/
theorem covers_so (r : OpcodeRow) (w : Word) (p q : Nat) (hq : q < 8) (hm : r.mask = 0xFFB8)
    (hp : r.pattern.toNat = p * 128 + q * 8) : r.covers w = decide (w.toNat / 128 = p ∧ w.toNat / 8 % 8 = q) := by
  have h : (w &&& (0xFFB8 : Word)).toNat = w.toNat / 128 * 128 + w.toNat / 8 % 8 * 8 := by
    have hs : w &&& (0xFFB8 : Word) = ((w >>> 7) <<< 7) ||| (((w >>> 3).setWidth 3).setWidth 16 <<< 3) := by
      apply BitVec.eq_of_getLsbD_eq
      intro i hi
      interval_cases i <;> simp
    have hw := w.isLt
    rw [hs, BitVec.toNat_or]
    simp only [BitVec.toNat_shiftLeft, BitVec.toNat_ushiftRight, BitVec.toNat_setWidth, Nat.shiftRight_eq_div_pow,
      Nat.shiftLeft_eq]
    rw [Nat.mod_eq_of_lt (a := w.toNat / 2 ^ 7 * 2 ^ 7) (by omega), Nat.mul_comm, ← Nat.two_pow_add_eq_or_of_lt (i := 7) (by omega)]
    omega
  have hw := w.isLt
  rw [OpcodeRow.covers, hm, Bool.eq_iff_iff, beq_iff_eq, decide_eq_true_iff, ← BitVec.toNat_inj, h, hp]
  omega

/-- The decoder's answer as one chain of tests on the word's high bits, in the table's order. -/
def decodeByRange (w : Word) : Except DecodeError Instr :=
  let n := w.toNat
  if n / 8192 = 0 then .ok (.bl (off13Field w)) else
  if n / 1024 = 8 then .ok (.beq (off10Field w)) else
  if n / 1024 = 9 then .ok (.bne (off10Field w)) else
  if n / 1024 = 10 then .ok (.bc (off10Field w)) else
  if n / 1024 = 11 then .ok (.bnc (off10Field w)) else
  if n / 1024 = 12 then .ok (.bn (off10Field w)) else
  if n / 1024 = 13 then .ok (.bge (off10Field w)) else
  if n / 1024 = 14 then .ok (.blt (off10Field w)) else
  if n / 1024 = 15 then .ok (.bra (off10Field w)) else
  if n / 256 = 64 then .ok (.add (widthField w) (alSrcField w) (dstField w)) else
  if n / 256 = 65 then .ok (.addc (widthField w) (alSrcField w) (dstField w)) else
  if n / 256 = 66 then .ok (.sub (widthField w) (alSrcField w) (dstField w)) else
  if n / 256 = 67 then .ok (.subc (widthField w) (alSrcField w) (dstField w)) else
  if n / 256 = 68 then .ok (.dadd (widthField w) (alSrcField w) (dstField w)) else
  if n / 256 = 69 then .ok (.cmp (widthField w) (alSrcField w) (dstField w)) else
  if n / 256 = 70 then .ok (.xor (widthField w) (alSrcField w) (dstField w)) else
  if n / 256 = 71 then .ok (.and (widthField w) (alSrcField w) (dstField w)) else
  if n / 256 = 72 then .ok (.or (widthField w) (alSrcField w) (dstField w)) else
  if n / 256 = 73 then .ok (.bit (widthField w) (alSrcField w) (dstField w)) else
  if n / 256 = 74 then .ok (.bic (widthField w) (alSrcField w) (dstField w)) else
  if n / 256 = 75 then .ok (.bis (widthField w) (alSrcField w) (dstField w)) else
  if n / 128 = 152 then .ok (.mov (widthField w) (srcField w) (dstField w)) else
  if n / 64 = 306 then .ok (.swap (srcField w) (dstField w)) else
  if n / 128 = 154 ∧ n / 8 % 8 = 0 then .ok (.sra (widthField w) (dstField w)) else
  if n / 128 = 154 ∧ n / 8 % 8 = 1 then .ok (.rrc (widthField w) (dstField w)) else
  if n / 128 = 154 ∧ n / 8 % 8 = 2 then .ok (.comp (widthField w) (dstField w)) else
  if n / 8 = 2467 then .ok (.swpb (dstField w)) else
  if n / 8 = 2468 then .ok (.sxt (dstField w)) else
  if n / 8 = 2480 then .ok (.setpri (w.extractLsb' 0 3)) else
  if n / 16 = 1241 then .ok (.svc (w.extractLsb' 0 4)) else
  if n / 32 = 621 then .ok (.setcc (w.extractLsb' 0 5)) else
  if n / 32 = 622 then .ok (.clrcc (w.extractLsb' 0 5)) else
  if n / 1024 = 20 then .ok (.cex (w.extractLsb' 0 10)) else
  if n / 1024 = 22 then .ok (.ld (adjustField w) (widthField w) (srcField w) (dstField w)) else
  if n / 1024 = 23 then .ok (.st (adjustField w) (widthField w) (srcField w) (dstField w)) else
  if n / 2048 = 12 then .ok (.movl (immField w) (dstField w)) else
  if n / 2048 = 13 then .ok (.movlz (immField w) (dstField w)) else
  if n / 2048 = 14 then .ok (.movls (immField w) (dstField w)) else
  if n / 2048 = 15 then .ok (.movh (immField w) (dstField w)) else
  if n / 16384 = 2 then .ok (.ldr (dispField w) (widthField w) (srcField w) (dstField w)) else
  if n / 16384 = 3 then .ok (.str (dispField w) (widthField w) (srcField w) (dstField w)) else
  .error (.noMatch w)

/-- One step of the scan: the row's test, then the rest of the rows. -/
theorem scan_step {r : OpcodeRow} {w : Word} {p : Prop} [Decidable p] (h : r.covers w = decide p) (rows : List OpcodeRow)
    (e : Except DecodeError Instr)
    (rest : (match rows.find? (·.covers w) with | some r => Except.ok (r.fields w) | none => .error (.noMatch w)) = e) :
    (match (r :: rows).find? (·.covers w) with | some r => Except.ok (r.fields w) | none => .error (.noMatch w)) =
      if p then .ok (r.fields w) else e := by
  rw [List.find?_cons, h, ← rest]
  by_cases hp : p <;> simp [hp]

/-- The scan of the opcode table is the chain of range tests. -/
theorem decodeWord_eq_byRange (w : Word) : decodeWord w = decodeByRange w := by
  unfold decodeWord decodeByRange
  simp only [opcodeTable, tocRows, alRows, rexRows, soRows, sysRows, memRinRows, List.cons_append, List.nil_append]
  refine scan_step (covers_high _ w 13 0 (by decide) (by decide) (by decide)) _ _ ?_
  refine scan_step (covers_high _ w 10 8 (by decide) (by decide) (by decide)) _ _ ?_
  refine scan_step (covers_high _ w 10 9 (by decide) (by decide) (by decide)) _ _ ?_
  refine scan_step (covers_high _ w 10 10 (by decide) (by decide) (by decide)) _ _ ?_
  refine scan_step (covers_high _ w 10 11 (by decide) (by decide) (by decide)) _ _ ?_
  refine scan_step (covers_high _ w 10 12 (by decide) (by decide) (by decide)) _ _ ?_
  refine scan_step (covers_high _ w 10 13 (by decide) (by decide) (by decide)) _ _ ?_
  refine scan_step (covers_high _ w 10 14 (by decide) (by decide) (by decide)) _ _ ?_
  refine scan_step (covers_high _ w 10 15 (by decide) (by decide) (by decide)) _ _ ?_
  refine scan_step (covers_high _ w 8 64 (by decide) (by decide) (by decide)) _ _ ?_
  refine scan_step (covers_high _ w 8 65 (by decide) (by decide) (by decide)) _ _ ?_
  refine scan_step (covers_high _ w 8 66 (by decide) (by decide) (by decide)) _ _ ?_
  refine scan_step (covers_high _ w 8 67 (by decide) (by decide) (by decide)) _ _ ?_
  refine scan_step (covers_high _ w 8 68 (by decide) (by decide) (by decide)) _ _ ?_
  refine scan_step (covers_high _ w 8 69 (by decide) (by decide) (by decide)) _ _ ?_
  refine scan_step (covers_high _ w 8 70 (by decide) (by decide) (by decide)) _ _ ?_
  refine scan_step (covers_high _ w 8 71 (by decide) (by decide) (by decide)) _ _ ?_
  refine scan_step (covers_high _ w 8 72 (by decide) (by decide) (by decide)) _ _ ?_
  refine scan_step (covers_high _ w 8 73 (by decide) (by decide) (by decide)) _ _ ?_
  refine scan_step (covers_high _ w 8 74 (by decide) (by decide) (by decide)) _ _ ?_
  refine scan_step (covers_high _ w 8 75 (by decide) (by decide) (by decide)) _ _ ?_
  refine scan_step (covers_high _ w 7 152 (by decide) (by decide) (by decide)) _ _ ?_
  refine scan_step (covers_high _ w 6 306 (by decide) (by decide) (by decide)) _ _ ?_
  refine scan_step (covers_so _ w 154 0 (by decide) (by decide) (by decide)) _ _ ?_
  refine scan_step (covers_so _ w 154 1 (by decide) (by decide) (by decide)) _ _ ?_
  refine scan_step (covers_so _ w 154 2 (by decide) (by decide) (by decide)) _ _ ?_
  refine scan_step (covers_high _ w 3 2467 (by decide) (by decide) (by decide)) _ _ ?_
  refine scan_step (covers_high _ w 3 2468 (by decide) (by decide) (by decide)) _ _ ?_
  refine scan_step (covers_high _ w 3 2480 (by decide) (by decide) (by decide)) _ _ ?_
  refine scan_step (covers_high _ w 4 1241 (by decide) (by decide) (by decide)) _ _ ?_
  refine scan_step (covers_high _ w 5 621 (by decide) (by decide) (by decide)) _ _ ?_
  refine scan_step (covers_high _ w 5 622 (by decide) (by decide) (by decide)) _ _ ?_
  refine scan_step (covers_high _ w 10 20 (by decide) (by decide) (by decide)) _ _ ?_
  refine scan_step (covers_high _ w 10 22 (by decide) (by decide) (by decide)) _ _ ?_
  refine scan_step (covers_high _ w 10 23 (by decide) (by decide) (by decide)) _ _ ?_
  refine scan_step (covers_high _ w 11 12 (by decide) (by decide) (by decide)) _ _ ?_
  refine scan_step (covers_high _ w 11 13 (by decide) (by decide) (by decide)) _ _ ?_
  refine scan_step (covers_high _ w 11 14 (by decide) (by decide) (by decide)) _ _ ?_
  refine scan_step (covers_high _ w 11 15 (by decide) (by decide) (by decide)) _ _ ?_
  refine scan_step (covers_high _ w 14 2 (by decide) (by decide) (by decide)) _ _ ?_
  refine scan_step (covers_high _ w 14 3 (by decide) (by decide) (by decide)) _ _ ?_
  rfl

/-! ## The two outputs of the scan -/

/-- Everything the scan of the table can do: no row covers the word, and there is neither instruction nor record; or a
row of the table covers it, and both are that row's. -/
theorem scan_cases (w pc : Word) :
    ((∀ r ∈ opcodeTable, r.covers w = false) ∧ decodeWord w = .error (.noMatch w) ∧ decodedRecord w pc = none) ∨
      ∃ r ∈ opcodeTable, r.covers w = true ∧ decodeWord w = .ok (r.fields w) ∧ decodedRecord w pc = some (r.record w pc) := by
  unfold decodeWord decodedRecord
  cases h : opcodeTable.find? (·.covers w) with
  | none => exact .inl ⟨fun r hr => by simpa using List.find?_eq_none.1 h r hr, rfl, rfl⟩
  | some r => exact .inr ⟨r, List.mem_of_find?_eq_some h, by simpa using List.find?_some h, rfl, rfl⟩

/-! ## Fields as arithmetic -/

theorem val_dstField (w : Word) : (dstField w).val = w.toNat % 8 := by simp [dstField]

theorem val_srcField (w : Word) : (srcField w).val = w.toNat / 8 % 8 := by
  simp [srcField, Nat.shiftRight_eq_div_pow]

theorem getLsbD_eq_div (w : Word) (k : Nat) : w.getLsbD k = decide (w.toNat / 2 ^ k % 2 = 1) := by
  rw [BitVec.getLsbD, Nat.testBit_eq_decide_div_mod_eq]

theorem toNat_immField (w : Word) : (immField w).toNat = w.toNat / 8 % 256 := by
  simp [immField, BitVec.extractLsb'_toNat, Nat.shiftRight_eq_div_pow]

theorem toNat_dispField (w : Word) : (dispField w).toNat = w.toNat / 128 % 128 := by
  simp [dispField, BitVec.extractLsb'_toNat, Nat.shiftRight_eq_div_pow]

theorem toNat_off13Field (w : Word) : (off13Field w).toNat = w.toNat % 8192 := by
  simp [off13Field, BitVec.extractLsb'_toNat]

theorem toNat_off10Field (w : Word) : (off10Field w).toNat = w.toNat % 1024 := by
  simp [off10Field, BitVec.extractLsb'_toNat]

theorem toNat_lowField (w : Word) (k : Nat) : (w.extractLsb' 0 k).toNat = w.toNat % 2 ^ k := by
  simp [BitVec.extractLsb'_toNat]

end Sys2Proof
end

