-- ==== Sys2Proof/Laws/Encode.lean ====
section
/-! SUPPORT. The encoder's words as numbers, one lemma per format. -/

namespace Sys2Proof

open Sys2Proof.Machine

theorem toNat_append_add {m n : Nat} (x : BitVec m) (y : BitVec n) : (x ++ y).toNat = x.toNat * 2 ^ n + y.toNat := by
  rw [BitVec.toNat_append, Nat.shiftLeft_eq, Nat.mul_comm, ← Nat.two_pow_add_eq_or_of_lt y.isLt]

@[simp] theorem toNat_regBits (r : RegIdx) : (regBits r).toNat = r.val := rfl

theorem toNat_widthBit (w : Width) : (widthBit w).toNat * 64 = wbNumber w := by cases w <;> rfl

theorem toNat_ofBool_bit (b : Bool) : (BitVec.ofBool b).toNat = bitNumber b := by cases b <;> rfl

theorem toNat_alSrcBits (w : Width) (s : AlSrc) : (alSrcBits w s).toNat * 8 = alSrcNumber s + wbNumber w := by
  have hw := toNat_widthBit w
  cases s with
  | reg r =>
    simp only [alSrcBits, toNat_append_add, toNat_regBits, alSrcNumber, BitVec.toNat_ofNat]
    omega
  | const r =>
    simp only [alSrcBits, toNat_append_add, toNat_regBits, alSrcNumber, BitVec.toNat_ofNat]
    omega

theorem toNat_encodeBr (c : BitVec 3) (off : BitVec 10) : (encodeBr c off).toNat = 0x2000 + c.toNat * 1024 + off.toNat := by
  simp only [encodeBr, toNat_append_add, BitVec.toNat_ofNat]
  omega

theorem toNat_encodeAl (op : BitVec 4) (w : Width) (s : AlSrc) (d : RegIdx) :
    (encodeAl op w s d).toNat = 0x4000 + op.toNat * 256 + alSrcNumber s + wbNumber w + d.val := by
  have h := toNat_alSrcBits w s
  simp only [encodeAl, toNat_append_add, BitVec.toNat_ofNat, toNat_regBits]
  omega

theorem toNat_encodeSo (wb : BitVec 1) (op : BitVec 3) (d : RegIdx) :
    (encodeSo wb op d).toNat = 0x4D00 + wb.toNat * 64 + op.toNat * 8 + d.val := by
  simp only [encodeSo, toNat_append_add, BitVec.toNat_ofNat, toNat_regBits]
  omega

theorem toNat_encodeLdSt (l : BitVec 1) (m : AdjustMode) (w : Width) (s d : RegIdx) :
    (encodeLdSt l m w s d).toNat = 0x5800 + l.toNat * 1024 + bitNumber m.pre * 512 + bitNumber m.dec * 256 +
      bitNumber m.inc * 128 + wbNumber w + s.val * 8 + d.val := by
  have h := toNat_widthBit w
  simp only [encodeLdSt, toNat_append_add, BitVec.toNat_ofNat, toNat_regBits, toNat_ofBool_bit]
  omega

theorem toNat_encodeRin (op : BitVec 2) (b : Byte) (d : RegIdx) :
    (encodeRin op b d).toNat = 0x6000 + op.toNat * 2048 + b.toNat * 8 + d.val := by
  simp only [encodeRin, toNat_append_add, BitVec.toNat_ofNat, toNat_regBits]
  omega

theorem toNat_encodeIndexed (l : BitVec 1) (v : BitVec 7) (w : Width) (s d : RegIdx) :
    (encodeIndexed l v w s d).toNat = 0x8000 + l.toNat * 16384 + v.toNat * 128 + wbNumber w + s.val * 8 + d.val := by
  have h := toNat_widthBit w
  simp only [encodeIndexed, toNat_append_add, BitVec.toNat_ofNat, toNat_regBits]
  omega

end Sys2Proof
end

