-- ==== Sys2Proof/Laws/State.lean ====
section
/-! SUPPORT. What each update of the state leaves in each field: one lemma per field per update. -/

namespace Sys2Proof.Machine

/-! ## setReg -/

theorem State.reg_setReg (s : State) (r q : RegIdx) (v : Word) :
    (s.setReg r v).reg q = if q = r then v else s.reg q := by
  simp only [State.reg, State.setReg, Vector.get_eq_getElem, Vector.getElem_set]
  by_cases h : q = r
  · simp [h]
  · have h' : ¬(r : Nat) = q := fun e => h (Fin.ext e.symm)
    rw [if_neg h', if_neg h]

@[simp] theorem State.reg_setReg_self (s : State) (r : RegIdx) (v : Word) : (s.setReg r v).reg r = v := by
  simp [State.reg_setReg]

theorem State.reg_setReg_of_ne (s : State) {r q : RegIdx} (v : Word) (h : q ≠ r) : (s.setReg r v).reg q = s.reg q := by
  simp [State.reg_setReg, h]

@[simp] theorem State.setReg_psw (s : State) (r : RegIdx) (v : Word) : (s.setReg r v).psw = s.psw := rfl
@[simp] theorem State.setReg_mem (s : State) (r : RegIdx) (v : Word) : (s.setReg r v).mem = s.mem := rfl
@[simp] theorem State.setReg_run (s : State) (r : RegIdx) (v : Word) : (s.setReg r v).run = s.run := rfl
@[simp] theorem State.setReg_report (s : State) (r : RegIdx) (v : Word) : (s.setReg r v).report = s.report := rfl
@[simp] theorem State.setReg_cfg (s : State) (r : RegIdx) (v : Word) : (s.setReg r v).cfg = s.cfg := rfl
@[simp] theorem State.setReg_byteAt (s : State) (r : RegIdx) (v : Word) (a : Nat) :
    (s.setReg r v).byteAt a = s.byteAt a := rfl
@[simp] theorem State.setReg_inRange (s : State) (r : RegIdx) (v : Word) (a : Nat) :
    (s.setReg r v).inRange a = s.inRange a := rfl
@[simp] theorem State.setReg_next (s : State) (r : RegIdx) (v a : Word) : (s.setReg r v).next a = s.next a := rfl
@[simp] theorem State.setReg_memRead (s : State) (r : RegIdx) (v : Word) (w : Width) (a : Word) :
    (s.setReg r v).memRead w a = s.memRead w a := by cases w <;> rfl

/-! ## setPc -/

@[simp] theorem State.pc_setPc (s : State) (a : Word) : (s.setPc a).pc = a := by simp [State.setPc, State.pc]
theorem State.pc_eq_reg (s : State) : s.pc = s.reg pcIdx := rfl
@[simp] theorem State.setPc_psw (s : State) (a : Word) : (s.setPc a).psw = s.psw := rfl
@[simp] theorem State.setPc_mem (s : State) (a : Word) : (s.setPc a).mem = s.mem := rfl
@[simp] theorem State.setPc_run (s : State) (a : Word) : (s.setPc a).run = s.run := rfl
@[simp] theorem State.setPc_report (s : State) (a : Word) : (s.setPc a).report = s.report := rfl
@[simp] theorem State.setPc_cfg (s : State) (a : Word) : (s.setPc a).cfg = s.cfg := rfl
@[simp] theorem State.setPc_byteAt (s : State) (a : Word) (b : Nat) : (s.setPc a).byteAt b = s.byteAt b := rfl
theorem State.reg_setPc (s : State) (a : Word) (q : RegIdx) : (s.setPc a).reg q = if q = pcIdx then a else s.reg q :=
  s.reg_setReg pcIdx q a

/-! ## setPsw -/

@[simp] theorem State.setPsw_reg (s : State) (p : Word) (r : RegIdx) : (s.setPsw p).reg r = s.reg r := rfl
@[simp] theorem State.setPsw_psw (s : State) (p : Word) : (s.setPsw p).psw = p := rfl
@[simp] theorem State.setPsw_mem (s : State) (p : Word) : (s.setPsw p).mem = s.mem := rfl
@[simp] theorem State.setPsw_run (s : State) (p : Word) : (s.setPsw p).run = s.run := rfl
@[simp] theorem State.setPsw_report (s : State) (p : Word) : (s.setPsw p).report = s.report := rfl
@[simp] theorem State.setPsw_cfg (s : State) (p : Word) : (s.setPsw p).cfg = s.cfg := rfl
@[simp] theorem State.setPsw_byteAt (s : State) (p : Word) (a : Nat) : (s.setPsw p).byteAt a = s.byteAt a := rfl

/-! ## setByte -/

@[simp] theorem State.setByte_reg (s : State) (a : Nat) (b : Byte) (r : RegIdx) : (s.setByte a b).reg r = s.reg r := rfl
@[simp] theorem State.setByte_pc (s : State) (a : Nat) (b : Byte) : (s.setByte a b).pc = s.pc := rfl
@[simp] theorem State.setByte_psw (s : State) (a : Nat) (b : Byte) : (s.setByte a b).psw = s.psw := rfl
@[simp] theorem State.setByte_mem (s : State) (a : Nat) (b : Byte) : (s.setByte a b).mem = Memory.set s.mem a b := rfl
@[simp] theorem State.setByte_run (s : State) (a : Nat) (b : Byte) : (s.setByte a b).run = s.run := rfl
@[simp] theorem State.setByte_report (s : State) (a : Nat) (b : Byte) : (s.setByte a b).report = s.report := rfl
@[simp] theorem State.setByte_cfg (s : State) (a : Nat) (b : Byte) : (s.setByte a b).cfg = s.cfg := rfl
@[simp] theorem State.setByte_inRange (s : State) (a : Nat) (b : Byte) (x : Nat) :
    (s.setByte a b).inRange x = s.inRange x := rfl
@[simp] theorem State.setByte_next (s : State) (a : Nat) (b : Byte) (x : Word) : (s.setByte a b).next x = s.next x := rfl

/-! ## emit, abort, halt -/

@[simp] theorem State.emit_reg (s : State) (k : Report) (r : RegIdx) : (s.emit k).reg r = s.reg r := rfl
@[simp] theorem State.emit_pc (s : State) (k : Report) : (s.emit k).pc = s.pc := rfl
@[simp] theorem State.emit_psw (s : State) (k : Report) : (s.emit k).psw = s.psw := rfl
@[simp] theorem State.emit_mem (s : State) (k : Report) : (s.emit k).mem = s.mem := rfl
@[simp] theorem State.emit_run (s : State) (k : Report) : (s.emit k).run = s.run := rfl
@[simp] theorem State.emit_report (s : State) (k : Report) : (s.emit k).report = k := rfl
@[simp] theorem State.emit_cfg (s : State) (k : Report) : (s.emit k).cfg = s.cfg := rfl
@[simp] theorem State.emit_byteAt (s : State) (k : Report) (a : Nat) : (s.emit k).byteAt a = s.byteAt a := rfl

@[simp] theorem State.abort_reg (s : State) (k : Report) (r : RegIdx) : (s.abort k).reg r = s.reg r := rfl
@[simp] theorem State.abort_pc (s : State) (k : Report) : (s.abort k).pc = s.pc := rfl
@[simp] theorem State.abort_psw (s : State) (k : Report) : (s.abort k).psw = s.psw := rfl
@[simp] theorem State.abort_mem (s : State) (k : Report) : (s.abort k).mem = s.mem := rfl
@[simp] theorem State.abort_run (s : State) (k : Report) : (s.abort k).run = s.run := rfl
@[simp] theorem State.abort_report (s : State) (k : Report) : (s.abort k).report = k := rfl
@[simp] theorem State.abort_cfg (s : State) (k : Report) : (s.abort k).cfg = s.cfg := rfl
@[simp] theorem State.abort_byteAt (s : State) (k : Report) (a : Nat) : (s.abort k).byteAt a = s.byteAt a := rfl

@[simp] theorem State.halt_reg (s : State) (k : HaltKind) (r : RegIdx) : (s.halt k).reg r = s.reg r := rfl
@[simp] theorem State.halt_pc (s : State) (k : HaltKind) : (s.halt k).pc = s.pc := rfl
@[simp] theorem State.halt_psw (s : State) (k : HaltKind) : (s.halt k).psw = s.psw := rfl
@[simp] theorem State.halt_mem (s : State) (k : HaltKind) : (s.halt k).mem = s.mem := rfl
@[simp] theorem State.halt_run (s : State) (k : HaltKind) : (s.halt k).run = .halted k := rfl
@[simp] theorem State.halt_report (s : State) (k : HaltKind) : (s.halt k).report = .halted k := rfl
@[simp] theorem State.halt_cfg (s : State) (k : HaltKind) : (s.halt k).cfg = s.cfg := rfl
@[simp] theorem State.halt_byteAt (s : State) (k : HaltKind) (a : Nat) : (s.halt k).byteAt a = s.byteAt a := rfl

/-! ## advance -/

theorem State.advance_reg (s : State) (r : RegIdx) :
    s.advance.reg r = if r = pcIdx then s.pc + 2 else s.reg r := s.reg_setPc _ r
@[simp] theorem State.advance_pc (s : State) : s.advance.pc = s.pc + 2 := by simp [State.advance]
@[simp] theorem State.advance_psw (s : State) : s.advance.psw = s.psw := rfl
@[simp] theorem State.advance_mem (s : State) : s.advance.mem = s.mem := rfl
@[simp] theorem State.advance_run (s : State) : s.advance.run = s.run := rfl
@[simp] theorem State.advance_report (s : State) : s.advance.report = .none := rfl
@[simp] theorem State.advance_cfg (s : State) : s.advance.cfg = s.cfg := rfl
@[simp] theorem State.advance_byteAt (s : State) (a : Nat) : s.advance.byteAt a = s.byteAt a := rfl

end Sys2Proof.Machine
end

