-- ==== Sys2Proof/Laws/Memory.lean ====
section
/-! SUPPORT. Memory and bus: read after write, the canonical form, and what each transfer can do. -/

namespace Sys2Proof.Machine

/-! ## The list of cells -/

theorem Memory.get?_set (m : Memory) (a k : Nat) (b : Byte) :
    Memory.get? (Memory.set m a b) k = if k = a then some b else Memory.get? m k := by
  induction m with
  | nil => simp [Memory.set, Memory.get?, eq_comm]
  | cons c rest ih =>
    obtain ⟨x, v⟩ := c
    unfold Memory.set
    split
    · by_cases h : k = a
      · simp [Memory.get?, h]
      · simp [Memory.get?, h, Ne.symm h]
    · split
      · subst_vars
        by_cases h : k = x
        · simp [Memory.get?, h]
        · simp [Memory.get?, h, Ne.symm h]
      · rename_i hlt hne
        simp only [Memory.get?, ih]
        by_cases h : k = a
        · simp [h, Ne.symm hne]
        · simp [h]

theorem Memory.mem_set {m : Memory} {a : Nat} {b : Byte} {c : Host.Cell} (h : c ∈ Memory.set m a b) :
    c = (a, b) ∨ c ∈ m := by
  induction m with
  | nil => simpa [Memory.set] using h
  | cons d rest ih =>
    obtain ⟨x, v⟩ := d
    unfold Memory.set at h
    split at h
    · simpa using h
    · split at h
      · rcases List.mem_cons.1 h with h | h
        · exact .inl h
        · exact .inr (List.mem_cons_of_mem _ h)
      · rcases List.mem_cons.1 h with h | h
        · exact .inr (by simp [h])
        · exact (ih h).imp id (List.mem_cons_of_mem _)

/-- Writing a byte keeps the canonical form. -/
theorem Memory.wf_set {m : Memory} (a : Nat) (b : Byte) (h : Memory.wf m) : Memory.wf (Memory.set m a b) := by
  induction m with
  | nil => simp [Memory.set, Memory.wf]
  | cons d rest ih =>
    obtain ⟨x, v⟩ := d
    have hx : ∀ c ∈ rest, x < c.1 := (List.pairwise_cons.1 h).1
    have hr : Memory.wf rest := (List.pairwise_cons.1 h).2
    unfold Memory.set
    split
    · rename_i hlt
      refine List.pairwise_cons.2 ⟨fun c hc => ?_, h⟩
      rcases List.mem_cons.1 hc with rfl | hc
      · exact hlt
      · exact lt_trans hlt (hx c hc)
    · split
      · subst_vars
        exact List.pairwise_cons.2 ⟨hx, hr⟩
      · refine List.pairwise_cons.2 ⟨fun c hc => ?_, ih hr⟩
        rcases Memory.mem_set hc with rfl | hc
        · show x < a
          omega
        · exact hx c hc

/-! ## Bytes of a state -/

theorem State.byteAt_setByte (s : State) (a k : Nat) (b : Byte) :
    (s.setByte a b).byteAt k = if k = a then b else s.byteAt k := by
  simp only [State.byteAt, State.setByte, Memory.get?_set]
  split <;> rfl

@[simp] theorem State.byteAt_setByte_self (s : State) (a : Nat) (b : Byte) : (s.setByte a b).byteAt a = b := by
  simp [State.byteAt_setByte]

/-! ## The bus -/

theorem State.inRange_iff (s : State) (a : Nat) : s.inRange a = true ↔ a < s.cfg.memSize := by simp [State.inRange]

theorem State.busRead_of_lt {s : State} {a : Nat} (h : a < s.cfg.memSize) : s.busRead a = .ok (s.byteAt a) := by
  simp [State.busRead, State.inRange, h]

theorem State.busRead_of_not_lt {s : State} {a : Nat} (h : ¬a < s.cfg.memSize) :
    s.busRead a = .error (.addressOutOfRange a) := by
  simp [State.busRead, State.inRange, h]

theorem State.busWrite_of_lt {s : State} {a : Nat} (b : Byte) (h : a < s.cfg.memSize) :
    s.busWrite a b = .ok (s.setByte a b) := by
  simp [State.busWrite, State.inRange, h]

theorem State.busWrite_of_not_lt {s : State} {a : Nat} (b : Byte) (h : ¬a < s.cfg.memSize) :
    s.busWrite a b = .error (.addressOutOfRange a) := by
  simp [State.busWrite, State.inRange, h]

/-- Everything a bus write can do. -/
theorem State.busWrite_cases (s : State) (a : Nat) (b : Byte) :
    (a < s.cfg.memSize ∧ s.busWrite a b = .ok (s.setByte a b)) ∨
      (¬a < s.cfg.memSize ∧ s.busWrite a b = .error (.addressOutOfRange a)) := by
  by_cases h : a < s.cfg.memSize
  · exact .inl ⟨h, State.busWrite_of_lt b h⟩
  · exact .inr ⟨h, State.busWrite_of_not_lt b h⟩

/-! ## Transfers -/

/-- Everything a byte read can answer. -/
theorem State.memRead_byte (s : State) (a : Word) :
    s.memRead .byte a = if a.toNat < s.cfg.memSize then .ok ((s.byteAt a.toNat).setWidth 16)
      else .error (.addressOutOfRange a.toNat) := by
  by_cases h : a.toNat < s.cfg.memSize
  · simp [State.memRead, State.busRead_of_lt h, h]
  · simp [State.memRead, State.busRead_of_not_lt h, h]

/-- Everything a word read can answer. -/
theorem State.memRead_word (s : State) (a : Word) :
    s.memRead .word a =
      if a.toNat < s.cfg.memSize then
        if s.next a < s.cfg.memSize then .ok (wordOfBytes (s.byteAt a.toNat) (s.byteAt (s.next a)))
        else .error (.addressOutOfRange (s.next a))
      else .error (.addressOutOfRange a.toNat) := by
  by_cases h : a.toNat < s.cfg.memSize
  · by_cases h' : s.next a < s.cfg.memSize
    · simp [State.memRead, State.busRead_of_lt h, State.busRead_of_lt h', h, h']
    · simp [State.memRead, State.busRead_of_lt h, State.busRead_of_not_lt h', h, h']
  · simp [State.memRead, State.busRead_of_not_lt h, h]

/-- Everything a byte write can do. -/
theorem State.memWrite_byte (s : State) (a v : Word) :
    s.memWrite .byte a v = if a.toNat < s.cfg.memSize then (s.setByte a.toNat (loByte v), none)
      else (s, some (.addressOutOfRange a.toNat)) := by
  by_cases h : a.toNat < s.cfg.memSize
  · simp [State.memWrite, State.busWrite_of_lt _ h, h]
  · simp [State.memWrite, State.busWrite_of_not_lt _ h, h]

/-- Everything a word write can do; the first byte stays when the second fails. -/
theorem State.memWrite_word (s : State) (a v : Word) :
    s.memWrite .word a v =
      if a.toNat < s.cfg.memSize then
        if s.next a < s.cfg.memSize then
          ((s.setByte a.toNat (loByte v)).setByte (s.next a) (hiByte v), none)
        else (s.setByte a.toNat (loByte v), some (.addressOutOfRange (s.next a)))
      else (s, some (.addressOutOfRange a.toNat)) := by
  by_cases h : a.toNat < s.cfg.memSize
  · by_cases h' : s.next a < s.cfg.memSize
    · have h₂ : s.next a < (s.setByte a.toNat (loByte v)).cfg.memSize := h'
      simp [State.memWrite, State.busWrite_of_lt _ h, State.busWrite_of_lt _ h₂, h, h']
    · have h₂ : ¬s.next a < (s.setByte a.toNat (loByte v)).cfg.memSize := h'
      simp [State.memWrite, State.busWrite_of_lt _ h, State.busWrite_of_not_lt _ h₂, h, h']
  · simp [State.memWrite, State.busWrite_of_not_lt _ h, h]

/-- A memory write touches memory alone. -/
theorem State.memWrite_frame (s : State) (w : Width) (a v : Word) :
    (∀ r, (s.memWrite w a v).1.reg r = s.reg r) ∧ (s.memWrite w a v).1.psw = s.psw ∧
      (s.memWrite w a v).1.run = s.run ∧ (s.memWrite w a v).1.report = s.report ∧ (s.memWrite w a v).1.cfg = s.cfg := by
  cases w
  · rw [State.memWrite_word]
    split
    · split <;> simp
    · simp
  · rw [State.memWrite_byte]
    split <;> simp

/-- A word read at `a` and a word write at `a` touch two different bytes. -/
theorem nextAddr_ne (mode : HighByteAddr) (a : Word) : nextAddr mode a ≠ a.toNat := by
  have := a.isLt
  cases mode
  · have h1 : (1 : Word).toNat = 1 := rfl
    simp only [nextAddr, BitVec.toNat_add, h1]
    omega
  · simp [nextAddr]

end Sys2Proof.Machine
end

