-- ==== Sys2Proof/Laws/Ops.lean ====
section
/-! SUPPORT. What each shared operation can do, said once: register writes by width, the ALU's commit, the address
adjustments, the two transfers, the branch. -/

namespace Sys2Proof.Machine

/-! ## Register writes -/

/-- The value a register holds after a write in the selected width. -/
def widthValue (w : Width) (old v : Word) : Word :=
  match w with
  | .word => v
  | .byte => mergeLow old v

@[simp] theorem loByte_widthValue (w : Width) (old v : Word) : loByte (widthValue w old v) = loByte v := by
  cases w <;> simp [widthValue]

theorem State.writeReg_eq (s : State) (r : RegIdx) (v : Word) (isByte isHighByte : Bool) :
    s.writeReg r v isByte isHighByte =
      s.setReg r (if isByte then (if isHighByte then mergeHigh (s.reg r) v else mergeLow (s.reg r) v) else v) := by
  cases isByte <;> cases isHighByte <;> rfl

theorem State.writeWidth_eq (s : State) (w : Width) (r : RegIdx) (v : Word) :
    s.writeWidth w r v = s.setReg r (widthValue w (s.reg r) v) := by
  cases w <;> rfl

/-! ## The frames compose -/

theorem OnlyRegs.of_setReg (s : State) (r : RegIdx) (v : Word) : OnlyRegs s (s.setReg r v) [r] :=
  ⟨fun q hq => s.reg_setReg_of_ne v (by simpa using hq), rfl, fun _ => rfl, rfl, rfl, rfl⟩

theorem OnlyRegs.refl (s : State) (rs : List RegIdx) : OnlyRegs s s rs :=
  ⟨fun _ _ => rfl, rfl, fun _ => rfl, rfl, rfl, rfl⟩

theorem OnlyRegs.trans {s t u : State} {rs : List RegIdx} (h : OnlyRegs s t rs) (k : OnlyRegs t u rs) : OnlyRegs s u rs :=
  ⟨fun r hr => (k.1 r hr).trans (h.1 r hr), k.2.1.trans h.2.1, fun a => (k.2.2.1 a).trans (h.2.2.1 a),
    k.2.2.2.1.trans h.2.2.2.1, k.2.2.2.2.1.trans h.2.2.2.2.1, k.2.2.2.2.2.trans h.2.2.2.2.2⟩

theorem OnlyRegs.mono {s t : State} {rs qs : List RegIdx} (h : OnlyRegs s t rs) (hq : ∀ r ∈ rs, r ∈ qs) : OnlyRegs s t qs :=
  ⟨fun r hr => h.1 r fun hm => hr (hq r hm), h.2⟩

theorem OnlyRegsAndFlags.mono {s t : State} {rs qs : List RegIdx} (h : OnlyRegsAndFlags s t rs)
    (hq : ∀ r ∈ rs, r ∈ qs) : OnlyRegsAndFlags s t qs :=
  ⟨fun r hr => h.1 r fun hm => hr (hq r hm), h.2⟩

/-! ## The ALU -/

/-- Everything `aluCommit` does: the destination where there is a write-back, the status word, and nothing else. -/
theorem State.aluCommit_spec (s : State) (w : Width) (dst : RegIdx) (src d : Word) (out : AluOut) :
    let t := s.aluCommit w dst src d out
    t.reg dst = (if out.writeback then widthValue w (s.reg dst) (BitVec.ofNat 16 out.r) else s.reg dst) ∧
      t.psw = updateFlags s.psw out.r src.toNat d.toNat w out.isSub out.cOverride ∧
      t.mem = s.mem ∧ OnlyRegsAndFlags s t (if out.writeback then [dst] else []) := by
  have hp := (updateFlags_spec s.psw out.r src.toNat d.toNat w out.isSub out.cOverride).2.2.2.2
  unfold State.aluCommit
  cases hwb : out.writeback
  · exact ⟨rfl, rfl, rfl, fun _ _ => rfl, hp, fun _ => rfl, rfl, rfl, rfl⟩
  · simp only [if_true, State.writeWidth_eq]
    refine ⟨by simp, rfl, rfl, fun r hr => ?_, hp, fun _ => rfl, rfl, rfl, rfl⟩
    exact State.reg_setReg_of_ne _ _ (by simpa using hr)

/-- Everything an AL instruction does, for the operation it names. -/
theorem State.runAl_spec (s : State) (op : Width → Word → Word → Bool → AluOut) (w : Width) (src : AlSrc) (dst : RegIdx) :
    let out := op w (s.reg dst) (s.alSource w src) (pswC s.psw)
    let t := s.runAl op w src dst
    t.reg dst = (if out.writeback then widthValue w (s.reg dst) (BitVec.ofNat 16 out.r) else s.reg dst) ∧
      t.psw = updateFlags s.psw out.r (s.alSource w src).toNat (s.reg dst).toNat w out.isSub out.cOverride ∧
      t.mem = s.mem ∧ OnlyRegsAndFlags s t (if out.writeback then [dst] else []) :=
  s.aluCommit_spec w dst _ _ _

/-- Everything an SO instruction does, for the operation it names. -/
theorem State.runSo_spec (s : State) (op : Width → Nat → Bool → Nat × Option Bool) (w : Width) (dst : RegIdx) :
    let out := op w (maskTo w (s.reg dst).toNat) (pswC s.psw)
    let t := s.runSo op w dst
    t.reg dst = widthValue w (s.reg dst) (BitVec.ofNat 16 out.1) ∧
      t.psw = updateFlags s.psw out.1 (s.reg dst).toNat (s.reg dst).toNat w false out.2 ∧
      t.mem = s.mem ∧ OnlyRegsAndFlags s t [dst] := by
  have h := s.aluCommit_spec w dst (s.reg dst) (s.reg dst)
    { r := (op w (maskTo w (s.reg dst).toNat) (pswC s.psw)).1, writeback := true, isSub := false,
      cOverride := (op w (maskTo w (s.reg dst).toNat) (pswC s.psw)).2 }
  simpa [State.runSo] using h

/-! ## Address adjustment -/

theorem State.preAdjust_eq (s : State) (m : AdjustMode) (w : Width) (ar : RegIdx) :
    (m.pre = true ∧ modeAdjusts m = true ∧ s.preAdjust m w ar = s.setReg ar (adjustAddr m w (s.reg ar))) ∨
      ((m.pre = false ∨ modeAdjusts m = false) ∧ s.preAdjust m w ar = s) := by
  unfold State.preAdjust
  cases m.pre <;> cases modeAdjusts m <;> simp

theorem State.postAdjust_eq (s : State) (m : AdjustMode) (w : Width) (ar : RegIdx) (ea : Word) :
    (m.pre = false ∧ modeAdjusts m = true ∧ s.postAdjust m w ar ea = s.setReg ar (adjustAddr m w ea)) ∨
      ((m.pre = true ∨ modeAdjusts m = false) ∧ s.postAdjust m w ar ea = s) := by
  unfold State.postAdjust
  cases m.pre <;> cases modeAdjusts m <;> simp

theorem State.preAdjust_frame (s : State) (m : AdjustMode) (w : Width) (ar : RegIdx) :
    OnlyRegs s (s.preAdjust m w ar) [ar] ∧ (s.preAdjust m w ar).mem = s.mem := by
  rcases s.preAdjust_eq m w ar with ⟨-, -, h⟩ | ⟨-, h⟩ <;> rw [h]
  · exact ⟨OnlyRegs.of_setReg _ _ _, rfl⟩
  · exact ⟨OnlyRegs.refl _ _, rfl⟩

theorem State.postAdjust_frame (s : State) (m : AdjustMode) (w : Width) (ar : RegIdx) (ea : Word) :
    OnlyRegs s (s.postAdjust m w ar ea) [ar] ∧ (s.postAdjust m w ar ea).mem = s.mem := by
  rcases s.postAdjust_eq m w ar ea with ⟨-, -, h⟩ | ⟨-, h⟩ <;> rw [h]
  · exact ⟨OnlyRegs.of_setReg _ _ _, rfl⟩
  · exact ⟨OnlyRegs.refl _ _, rfl⟩

/-! ## Transfers -/

/-- Everything a load can do: abort with no register written, or write the destination and go on with `post`. -/
theorem State.loadThen_cases (s : State) (w : Width) (ea : Word) (dst : RegIdx) (post : State → State) :
    (∃ e, s.memRead w ea = .error e ∧ s.loadThen w ea dst post = s.abort (.executionFailure e)) ∨
      (∃ v, s.memRead w ea = .ok v ∧ s.loadThen w ea dst post = post (s.setReg dst (widthValue w (s.reg dst) v))) := by
  unfold State.loadThen
  cases h : s.memRead w ea with
  | error e => exact .inl ⟨e, rfl, rfl⟩
  | ok v => exact .inr ⟨v, rfl, by rw [← State.writeWidth_eq]⟩

/-- Everything a store can do: abort with what was written so far, or go on with `post`. -/
theorem State.storeThen_cases (s : State) (w : Width) (ea v : Word) (post : State → State) :
    (∃ e, (s.memWrite w ea v).2 = some e ∧
        s.storeThen w ea v post = (s.memWrite w ea v).1.abort (.executionFailure e)) ∨
      ((s.memWrite w ea v).2 = none ∧ s.storeThen w ea v post = post (s.memWrite w ea v).1) := by
  unfold State.storeThen
  obtain ⟨t, e⟩ := s.memWrite w ea v
  cases e with
  | none => exact .inr ⟨rfl, rfl⟩
  | some e => exact .inl ⟨e, rfl, rfl⟩

/-- The value that the bytes of a transfer hold. -/
def State.valueAt (s : State) (w : Width) (ea : Word) : Word :=
  match w with
  | .word => wordOfBytes (s.byteAt ea.toNat) (s.byteAt (s.next ea))
  | .byte => (s.byteAt ea.toNat).setWidth 16

/-- The state with every byte of a transfer replaced by the bytes of `v`. -/
def State.setBytes (s : State) (w : Width) (ea v : Word) : State :=
  match w with
  | .word => (s.setByte ea.toNat (loByte v)).setByte (s.next ea) (hiByte v)
  | .byte => s.setByte ea.toNat (loByte v)

@[simp] theorem State.setBytes_reg (s : State) (w : Width) (ea v : Word) (r : RegIdx) :
    (s.setBytes w ea v).reg r = s.reg r := by cases w <;> rfl
@[simp] theorem State.setBytes_psw (s : State) (w : Width) (ea v : Word) : (s.setBytes w ea v).psw = s.psw := by
  cases w <;> rfl
@[simp] theorem State.setBytes_run (s : State) (w : Width) (ea v : Word) : (s.setBytes w ea v).run = s.run := by
  cases w <;> rfl
@[simp] theorem State.setBytes_report (s : State) (w : Width) (ea v : Word) :
    (s.setBytes w ea v).report = s.report := by cases w <;> rfl
@[simp] theorem State.setBytes_cfg (s : State) (w : Width) (ea v : Word) : (s.setBytes w ea v).cfg = s.cfg := by
  cases w <;> rfl

/-- The bytes outside a transfer stay. -/
theorem State.setBytes_byteAt_of_notMem {s : State} {w : Width} {ea : Word} {k : Nat} (v : Word)
    (h : k ∉ storedBytes s w ea) : (s.setBytes w ea v).byteAt k = s.byteAt k := by
  cases w <;> simp_all [storedBytes, State.setBytes, State.byteAt_setByte]

/-- The two bytes of a word are distinct. -/
theorem State.next_ne (s : State) (ea : Word) : s.next ea ≠ ea.toNat := by
  have := ea.isLt
  unfold State.next nextAddr
  split
  · rw [BitVec.toNat_add]
    show (ea.toNat + 1) % 65536 ≠ ea.toNat
    omega
  · omega

/-- A read whose bytes are all in range answers them, low byte first. -/
theorem State.memRead_of_inRange {s : State} {w : Width} {ea : Word} (h : TransferInRange s w ea) :
    s.memRead w ea = .ok (s.valueAt w ea) := by
  cases w <;> unfold State.valueAt
  · rw [State.memRead_word, if_pos (h _ (by simp [storedBytes])), if_pos (h _ (by simp [storedBytes]))]
  · rw [State.memRead_byte, if_pos (h _ (by simp [storedBytes]))]

/-- A read with a byte out of range reports the first such address. -/
theorem State.memRead_of_not_inRange {s : State} {w : Width} {ea : Word} (h : ¬TransferInRange s w ea) :
    s.memRead w ea = .error (.addressOutOfRange (firstFailing s ea)) := by
  cases w
  · rw [State.memRead_word]
    simp only [TransferInRange, storedBytes, List.mem_cons, List.not_mem_nil, or_false, forall_eq_or_imp, forall_eq] at h
    simp only [firstFailing]
    split
    · rename_i h1
      rw [if_neg fun h2 => h ⟨h1, h2⟩]
    · rfl
  · simp only [TransferInRange, storedBytes, List.mem_singleton, forall_eq] at h
    rw [State.memRead_byte, if_neg h, firstFailing, if_neg h]

/-- A write whose bytes are all in range writes each of them and no other. -/
theorem State.memWrite_of_inRange {s : State} {w : Width} {ea : Word} (v : Word) (h : TransferInRange s w ea) :
    s.memWrite w ea v = (s.setBytes w ea v, none) := by
  cases w <;> unfold State.setBytes
  · rw [State.memWrite_word, if_pos (h _ (by simp [storedBytes])), if_pos (h _ (by simp [storedBytes]))]
  · rw [State.memWrite_byte, if_pos (h _ (by simp [storedBytes]))]

/-- A write with a byte out of range reports the first such address; the first byte stays written if it was in range. -/
theorem State.memWrite_of_not_inRange {s : State} {w : Width} {ea : Word} (v : Word) (h : ¬TransferInRange s w ea) :
    s.memWrite w ea v = (if ea.toNat < s.cfg.memSize then s.setByte ea.toNat (loByte v) else s,
      some (.addressOutOfRange (firstFailing s ea))) := by
  cases w
  · rw [State.memWrite_word]
    simp only [TransferInRange, storedBytes, List.mem_cons, List.not_mem_nil, or_false, forall_eq_or_imp, forall_eq] at h
    simp only [firstFailing]
    split
    · rename_i h1
      rw [if_neg fun h2 => h ⟨h1, h2⟩]
    · rfl
  · simp only [TransferInRange, storedBytes, List.mem_singleton, forall_eq] at h
    rw [State.memWrite_byte, if_neg h, firstFailing, if_neg h, if_neg h]

/-! ## Branches -/

/-- Everything a branch does: the pc, and only when taken. -/
theorem State.branchIf_spec (s : State) {n : Nat} (cond : Bool) (off : BitVec n) :
    (s.branchIf cond off).pc = (if cond then branchTarget s.pc off else s.pc) ∧
      (s.branchIf cond off).mem = s.mem ∧ OnlyRegs s (s.branchIf cond off) [pcIdx] := by
  cases cond
  · exact ⟨rfl, rfl, OnlyRegs.refl _ _⟩
  · exact ⟨by simp [State.branchIf], rfl, OnlyRegs.of_setReg _ _ _⟩

end Sys2Proof.Machine
end

