-- ==== Sys2Proof/Laws/PerInstr.lean ====
section
/-! SUPPORT. Statements made for every instruction, one lemma per constructor. -/

namespace Sys2Proof.Laws

/-- Row `k` of the table covers `w`: what shows that an instruction's word lands in the row of its mnemonic. -/
theorem row_covers {m : String} {w : Word} (k : Nat) (hk : k < opcodeTable.length) (hm : (opcodeTable[k]).mnemonic = m)
    {mask pattern : Word} (hmask : (opcodeTable[k]).mask = mask) (hpat : (opcodeTable[k]).pattern = pattern)
    (h : ∀ i < 16, (w &&& mask).getLsbD i = pattern.getLsbD i) :
    ∃ r ∈ opcodeTable, r.mnemonic = m ∧ r.covers w = true := by
  refine ⟨opcodeTable[k], List.getElem_mem hk, hm, ?_⟩
  rw [OpcodeRow.covers, hmask, hpat, beq_iff_eq]
  exact BitVec.eq_of_getLsbD_eq fun i hi => h i hi

namespace EncodesInItsRow

/-- The encoder's word of an instruction carries the fixed bits of the opcode-map row of its mnemonic (30_encoding.md
R101, R118). -/
def Statement (i : Instr) : Prop := ∃ r ∈ opcodeTable, r.mnemonic = i.mnemonic ∧ r.covers (encode i) = true

theorem bl (off : BitVec 13) : Statement (.bl off) :=
  row_covers 0 (by decide) rfl (mask := 0xE000) (pattern := 0x0000) rfl rfl
    (by
      intro i hi
      simp only [encode, BitVec.getLsbD_and, BitVec.getLsbD_append]
      interval_cases i <;> simp)

theorem beq (off : BitVec 10) : Statement (.beq off) :=
  row_covers 1 (by decide) rfl (mask := 0xFC00) (pattern := 0x2000) rfl rfl
    (by
      intro i hi
      simp only [encode, encodeBr, BitVec.getLsbD_and, BitVec.getLsbD_append]
      interval_cases i <;> simp)

theorem bne (off : BitVec 10) : Statement (.bne off) :=
  row_covers 2 (by decide) rfl (mask := 0xFC00) (pattern := 0x2400) rfl rfl
    (by
      intro i hi
      simp only [encode, encodeBr, BitVec.getLsbD_and, BitVec.getLsbD_append]
      interval_cases i <;> simp)

theorem bc (off : BitVec 10) : Statement (.bc off) :=
  row_covers 3 (by decide) rfl (mask := 0xFC00) (pattern := 0x2800) rfl rfl
    (by
      intro i hi
      simp only [encode, encodeBr, BitVec.getLsbD_and, BitVec.getLsbD_append]
      interval_cases i <;> simp)

theorem bnc (off : BitVec 10) : Statement (.bnc off) :=
  row_covers 4 (by decide) rfl (mask := 0xFC00) (pattern := 0x2C00) rfl rfl
    (by
      intro i hi
      simp only [encode, encodeBr, BitVec.getLsbD_and, BitVec.getLsbD_append]
      interval_cases i <;> simp)

theorem bn (off : BitVec 10) : Statement (.bn off) :=
  row_covers 5 (by decide) rfl (mask := 0xFC00) (pattern := 0x3000) rfl rfl
    (by
      intro i hi
      simp only [encode, encodeBr, BitVec.getLsbD_and, BitVec.getLsbD_append]
      interval_cases i <;> simp)

theorem bge (off : BitVec 10) : Statement (.bge off) :=
  row_covers 6 (by decide) rfl (mask := 0xFC00) (pattern := 0x3400) rfl rfl
    (by
      intro i hi
      simp only [encode, encodeBr, BitVec.getLsbD_and, BitVec.getLsbD_append]
      interval_cases i <;> simp)

theorem blt (off : BitVec 10) : Statement (.blt off) :=
  row_covers 7 (by decide) rfl (mask := 0xFC00) (pattern := 0x3800) rfl rfl
    (by
      intro i hi
      simp only [encode, encodeBr, BitVec.getLsbD_and, BitVec.getLsbD_append]
      interval_cases i <;> simp)

theorem bra (off : BitVec 10) : Statement (.bra off) :=
  row_covers 8 (by decide) rfl (mask := 0xFC00) (pattern := 0x3C00) rfl rfl
    (by
      intro i hi
      simp only [encode, encodeBr, BitVec.getLsbD_and, BitVec.getLsbD_append]
      interval_cases i <;> simp)

theorem add (w : Width) (s : AlSrc) (d : RegIdx) : Statement (.add w s d) :=
  row_covers 9 (by decide) rfl (mask := 0xFF00) (pattern := 0x4000) rfl rfl
    (by
      intro i hi
      simp only [encode, encodeAl, BitVec.getLsbD_and, BitVec.getLsbD_append]
      interval_cases i <;> simp)

theorem addc (w : Width) (s : AlSrc) (d : RegIdx) : Statement (.addc w s d) :=
  row_covers 10 (by decide) rfl (mask := 0xFF00) (pattern := 0x4100) rfl rfl
    (by
      intro i hi
      simp only [encode, encodeAl, BitVec.getLsbD_and, BitVec.getLsbD_append]
      interval_cases i <;> simp)

theorem sub (w : Width) (s : AlSrc) (d : RegIdx) : Statement (.sub w s d) :=
  row_covers 11 (by decide) rfl (mask := 0xFF00) (pattern := 0x4200) rfl rfl
    (by
      intro i hi
      simp only [encode, encodeAl, BitVec.getLsbD_and, BitVec.getLsbD_append]
      interval_cases i <;> simp)

theorem subc (w : Width) (s : AlSrc) (d : RegIdx) : Statement (.subc w s d) :=
  row_covers 12 (by decide) rfl (mask := 0xFF00) (pattern := 0x4300) rfl rfl
    (by
      intro i hi
      simp only [encode, encodeAl, BitVec.getLsbD_and, BitVec.getLsbD_append]
      interval_cases i <;> simp)

theorem dadd (w : Width) (s : AlSrc) (d : RegIdx) : Statement (.dadd w s d) :=
  row_covers 13 (by decide) rfl (mask := 0xFF00) (pattern := 0x4400) rfl rfl
    (by
      intro i hi
      simp only [encode, encodeAl, BitVec.getLsbD_and, BitVec.getLsbD_append]
      interval_cases i <;> simp)

theorem cmp (w : Width) (s : AlSrc) (d : RegIdx) : Statement (.cmp w s d) :=
  row_covers 14 (by decide) rfl (mask := 0xFF00) (pattern := 0x4500) rfl rfl
    (by
      intro i hi
      simp only [encode, encodeAl, BitVec.getLsbD_and, BitVec.getLsbD_append]
      interval_cases i <;> simp)

theorem xor (w : Width) (s : AlSrc) (d : RegIdx) : Statement (.xor w s d) :=
  row_covers 15 (by decide) rfl (mask := 0xFF00) (pattern := 0x4600) rfl rfl
    (by
      intro i hi
      simp only [encode, encodeAl, BitVec.getLsbD_and, BitVec.getLsbD_append]
      interval_cases i <;> simp)

theorem and (w : Width) (s : AlSrc) (d : RegIdx) : Statement (.and w s d) :=
  row_covers 16 (by decide) rfl (mask := 0xFF00) (pattern := 0x4700) rfl rfl
    (by
      intro i hi
      simp only [encode, encodeAl, BitVec.getLsbD_and, BitVec.getLsbD_append]
      interval_cases i <;> simp)

theorem or (w : Width) (s : AlSrc) (d : RegIdx) : Statement (.or w s d) :=
  row_covers 17 (by decide) rfl (mask := 0xFF00) (pattern := 0x4800) rfl rfl
    (by
      intro i hi
      simp only [encode, encodeAl, BitVec.getLsbD_and, BitVec.getLsbD_append]
      interval_cases i <;> simp)

theorem bit (w : Width) (s : AlSrc) (d : RegIdx) : Statement (.bit w s d) :=
  row_covers 18 (by decide) rfl (mask := 0xFF00) (pattern := 0x4900) rfl rfl
    (by
      intro i hi
      simp only [encode, encodeAl, BitVec.getLsbD_and, BitVec.getLsbD_append]
      interval_cases i <;> simp)

theorem bic (w : Width) (s : AlSrc) (d : RegIdx) : Statement (.bic w s d) :=
  row_covers 19 (by decide) rfl (mask := 0xFF00) (pattern := 0x4A00) rfl rfl
    (by
      intro i hi
      simp only [encode, encodeAl, BitVec.getLsbD_and, BitVec.getLsbD_append]
      interval_cases i <;> simp)

theorem bis (w : Width) (s : AlSrc) (d : RegIdx) : Statement (.bis w s d) :=
  row_covers 20 (by decide) rfl (mask := 0xFF00) (pattern := 0x4B00) rfl rfl
    (by
      intro i hi
      simp only [encode, encodeAl, BitVec.getLsbD_and, BitVec.getLsbD_append]
      interval_cases i <;> simp)

theorem mov (w : Width) (s d : RegIdx) : Statement (.mov w s d) :=
  row_covers 21 (by decide) rfl (mask := 0xFF80) (pattern := 0x4C00) rfl rfl
    (by
      intro i hi
      simp only [encode, BitVec.getLsbD_and, BitVec.getLsbD_append]
      interval_cases i <;> simp)

theorem swap (s d : RegIdx) : Statement (.swap s d) :=
  row_covers 22 (by decide) rfl (mask := 0xFFC0) (pattern := 0x4C80) rfl rfl
    (by
      intro i hi
      simp only [encode, BitVec.getLsbD_and, BitVec.getLsbD_append]
      interval_cases i <;> simp)

theorem sra (w : Width) (d : RegIdx) : Statement (.sra w d) :=
  row_covers 23 (by decide) rfl (mask := 0xFFB8) (pattern := 0x4D00) rfl rfl
    (by
      intro i hi
      simp only [encode, encodeSo, BitVec.getLsbD_and, BitVec.getLsbD_append]
      interval_cases i <;> simp)

theorem rrc (w : Width) (d : RegIdx) : Statement (.rrc w d) :=
  row_covers 24 (by decide) rfl (mask := 0xFFB8) (pattern := 0x4D08) rfl rfl
    (by
      intro i hi
      simp only [encode, encodeSo, BitVec.getLsbD_and, BitVec.getLsbD_append]
      interval_cases i <;> simp)

theorem comp (w : Width) (d : RegIdx) : Statement (.comp w d) :=
  row_covers 25 (by decide) rfl (mask := 0xFFB8) (pattern := 0x4D10) rfl rfl
    (by
      intro i hi
      simp only [encode, encodeSo, BitVec.getLsbD_and, BitVec.getLsbD_append]
      interval_cases i <;> simp)

theorem swpb (d : RegIdx) : Statement (.swpb d) :=
  row_covers 26 (by decide) rfl (mask := 0xFFF8) (pattern := 0x4D18) rfl rfl
    (by
      intro i hi
      simp only [encode, encodeSo, BitVec.getLsbD_and, BitVec.getLsbD_append]
      interval_cases i <;> simp)

theorem sxt (d : RegIdx) : Statement (.sxt d) :=
  row_covers 27 (by decide) rfl (mask := 0xFFF8) (pattern := 0x4D20) rfl rfl
    (by
      intro i hi
      simp only [encode, encodeSo, BitVec.getLsbD_and, BitVec.getLsbD_append]
      interval_cases i <;> simp)

theorem setpri (low : BitVec 3) : Statement (.setpri low) :=
  row_covers 28 (by decide) rfl (mask := 0xFFF8) (pattern := 0x4D80) rfl rfl
    (by
      intro i hi
      simp only [encode, BitVec.getLsbD_and, BitVec.getLsbD_append]
      interval_cases i <;> simp)

theorem svc (low : BitVec 4) : Statement (.svc low) :=
  row_covers 29 (by decide) rfl (mask := 0xFFF0) (pattern := 0x4D90) rfl rfl
    (by
      intro i hi
      simp only [encode, BitVec.getLsbD_and, BitVec.getLsbD_append]
      interval_cases i <;> simp)

theorem setcc (low : BitVec 5) : Statement (.setcc low) :=
  row_covers 30 (by decide) rfl (mask := 0xFFE0) (pattern := 0x4DA0) rfl rfl
    (by
      intro i hi
      simp only [encode, BitVec.getLsbD_and, BitVec.getLsbD_append]
      interval_cases i <;> simp)

theorem clrcc (low : BitVec 5) : Statement (.clrcc low) :=
  row_covers 31 (by decide) rfl (mask := 0xFFE0) (pattern := 0x4DC0) rfl rfl
    (by
      intro i hi
      simp only [encode, BitVec.getLsbD_and, BitVec.getLsbD_append]
      interval_cases i <;> simp)

theorem cex (low : BitVec 10) : Statement (.cex low) :=
  row_covers 32 (by decide) rfl (mask := 0xFC00) (pattern := 0x5000) rfl rfl
    (by
      intro i hi
      simp only [encode, BitVec.getLsbD_and, BitVec.getLsbD_append]
      interval_cases i <;> simp)

theorem ld (m : AdjustMode) (w : Width) (s d : RegIdx) : Statement (.ld m w s d) :=
  row_covers 33 (by decide) rfl (mask := 0xFC00) (pattern := 0x5800) rfl rfl
    (by
      intro i hi
      simp only [encode, encodeLdSt, BitVec.getLsbD_and, BitVec.getLsbD_append]
      interval_cases i <;> simp)

theorem st (m : AdjustMode) (w : Width) (s d : RegIdx) : Statement (.st m w s d) :=
  row_covers 34 (by decide) rfl (mask := 0xFC00) (pattern := 0x5C00) rfl rfl
    (by
      intro i hi
      simp only [encode, encodeLdSt, BitVec.getLsbD_and, BitVec.getLsbD_append]
      interval_cases i <;> simp)

theorem movl (b : Byte) (d : RegIdx) : Statement (.movl b d) :=
  row_covers 35 (by decide) rfl (mask := 0xF800) (pattern := 0x6000) rfl rfl
    (by
      intro i hi
      simp only [encode, encodeRin, BitVec.getLsbD_and, BitVec.getLsbD_append]
      interval_cases i <;> simp)

theorem movlz (b : Byte) (d : RegIdx) : Statement (.movlz b d) :=
  row_covers 36 (by decide) rfl (mask := 0xF800) (pattern := 0x6800) rfl rfl
    (by
      intro i hi
      simp only [encode, encodeRin, BitVec.getLsbD_and, BitVec.getLsbD_append]
      interval_cases i <;> simp)

theorem movls (b : Byte) (d : RegIdx) : Statement (.movls b d) :=
  row_covers 37 (by decide) rfl (mask := 0xF800) (pattern := 0x7000) rfl rfl
    (by
      intro i hi
      simp only [encode, encodeRin, BitVec.getLsbD_and, BitVec.getLsbD_append]
      interval_cases i <;> simp)

theorem movh (b : Byte) (d : RegIdx) : Statement (.movh b d) :=
  row_covers 38 (by decide) rfl (mask := 0xF800) (pattern := 0x7800) rfl rfl
    (by
      intro i hi
      simp only [encode, encodeRin, BitVec.getLsbD_and, BitVec.getLsbD_append]
      interval_cases i <;> simp)

theorem ldr (v : BitVec 7) (w : Width) (s d : RegIdx) : Statement (.ldr v w s d) :=
  row_covers 39 (by decide) rfl (mask := 0xC000) (pattern := 0x8000) rfl rfl
    (by
      intro i hi
      simp only [encode, encodeIndexed, BitVec.getLsbD_and, BitVec.getLsbD_append]
      interval_cases i <;> simp)

theorem str (v : BitVec 7) (w : Width) (s d : RegIdx) : Statement (.str v w s d) :=
  row_covers 40 (by decide) rfl (mask := 0xC000) (pattern := 0xC000) rfl rfl
    (by
      intro i hi
      simp only [encode, encodeIndexed, BitVec.getLsbD_and, BitVec.getLsbD_append]
      interval_cases i <;> simp)

end EncodesInItsRow

end Sys2Proof.Laws
end

