-- ==== Sys2Proof/Tests/Slice0.lean ====
section
/-! SUPPORT. Tests. The words are written out from the formats of 30_encoding.md, the expected results are those of
95_test_vectors.md and of the examples in the instruction rules. The second half gives, for the statements with
hypotheses, a state and operands that meet them. -/

namespace Sys2Proof.Tests

open Sys2Proof.Machine

/-! ## WellFormed -/

theorem test_bl_zero_is_ill_formed : Instr.wellFormed (.bl 0) = false := by decide
theorem test_bl_one_is_well_formed : Instr.wellFormed (.bl 1) = true := by decide

/-! ## Decoding: one word per constructor, its fields as the format of its row places them -/

theorem test_decode_bl : decodeTableWord 16 0b0001000000000001 = some (.bl 0x1001) := by decide
theorem test_decode_beq : decodeTableWord 16 0b0010001000000101 = some (.beq 0x205) := by decide
theorem test_decode_bne : decodeTableWord 16 0b0010011000000101 = some (.bne 0x205) := by decide
theorem test_decode_bc : decodeTableWord 16 0b0010101000000101 = some (.bc 0x205) := by decide
theorem test_decode_bnc : decodeTableWord 16 0b0010111000000101 = some (.bnc 0x205) := by decide
theorem test_decode_bn : decodeTableWord 16 0b0011001000000101 = some (.bn 0x205) := by decide
theorem test_decode_bge : decodeTableWord 16 0b0011011000000101 = some (.bge 0x205) := by decide
theorem test_decode_blt : decodeTableWord 16 0b0011101000000101 = some (.blt 0x205) := by decide
theorem test_decode_bra : decodeTableWord 16 0b0011111000000101 = some (.bra 0x205) := by decide
theorem test_decode_add : decodeTableWord 16 0b0100000001110001 = some (.add .byte (.reg 6) 1) := by decide
theorem test_decode_addc : decodeTableWord 16 0b0100000110011100 = some (.addc .word (.const 3) 4) := by decide
theorem test_decode_sub : decodeTableWord 16 0b0100001001110001 = some (.sub .byte (.reg 6) 1) := by decide
theorem test_decode_subc : decodeTableWord 16 0b0100001110011100 = some (.subc .word (.const 3) 4) := by decide
theorem test_decode_dadd : decodeTableWord 16 0b0100010001110001 = some (.dadd .byte (.reg 6) 1) := by decide
theorem test_decode_cmp : decodeTableWord 16 0b0100010110011100 = some (.cmp .word (.const 3) 4) := by decide
theorem test_decode_xor : decodeTableWord 16 0b0100011001110001 = some (.xor .byte (.reg 6) 1) := by decide
theorem test_decode_and : decodeTableWord 16 0b0100011110011100 = some (.and .word (.const 3) 4) := by decide
theorem test_decode_or : decodeTableWord 16 0b0100100001110001 = some (.or .byte (.reg 6) 1) := by decide
theorem test_decode_bit : decodeTableWord 16 0b0100100110011100 = some (.bit .word (.const 3) 4) := by decide
theorem test_decode_bic : decodeTableWord 16 0b0100101001110001 = some (.bic .byte (.reg 6) 1) := by decide
theorem test_decode_bis : decodeTableWord 16 0b0100101110011100 = some (.bis .word (.const 3) 4) := by decide
theorem test_decode_mov : decodeTableWord 16 0b0100110001101111 = some (.mov .byte 5 7) := by decide
theorem test_decode_swap : decodeTableWord 16 0b0100110010001010 = some (.swap 1 2) := by decide
theorem test_decode_sra : decodeTableWord 16 0b0100110101000001 = some (.sra .byte 1) := by decide
theorem test_decode_rrc : decodeTableWord 16 0b0100110100001110 = some (.rrc .word 6) := by decide
theorem test_decode_comp : decodeTableWord 16 0b0100110101010011 = some (.comp .byte 3) := by decide
theorem test_decode_swpb : decodeTableWord 16 0b0100110100011100 = some (.swpb 4) := by decide
theorem test_decode_sxt : decodeTableWord 16 0b0100110100100101 = some (.sxt 5) := by decide
theorem test_decode_setpri : decodeTableWord 16 0b0100110110000101 = some (.setpri 5) := by decide
theorem test_decode_svc : decodeTableWord 16 0b0100110110011010 = some (.svc 10) := by decide
theorem test_decode_setcc : decodeTableWord 16 0b0100110110110001 = some (.setcc 17) := by decide
theorem test_decode_clrcc : decodeTableWord 16 0b0100110111000010 = some (.clrcc 2) := by decide
theorem test_decode_cex : decodeTableWord 16 0b0101001000000011 = some (.cex 0x203) := by decide
theorem test_decode_ld : decodeTableWord 16 0b0101101100001010 = some (.ld ⟨true, true, false⟩ .word 1 2) := by decide
theorem test_decode_st : decodeTableWord 16 0b0101110011010001 = some (.st ⟨false, false, true⟩ .byte 2 1) := by decide
theorem test_decode_movl : decodeTableWord 16 0b0110000110100001 = some (.movl 0x34 1) := by decide
theorem test_decode_movlz : decodeTableWord 16 0b0110100110100001 = some (.movlz 0x34 1) := by decide
theorem test_decode_movls : decodeTableWord 16 0b0111000110100001 = some (.movls 0x34 1) := by decide
theorem test_decode_movh : decodeTableWord 16 0b0111100110100001 = some (.movh 0x34 1) := by decide
theorem test_decode_ldr : decodeTableWord 16 0b1010000111001010 = some (.ldr 0x43 .byte 1 2) := by decide
theorem test_decode_str : decodeTableWord 16 0b1111111110010001 = some (.str 0x7F .word 2 1) := by decide

theorem test_unmatched_words_do_not_decode :
    [0x4CC0, 0x4D28, 0x4D58, 0x4D88, 0x4DE0, 0x4FFF, 0x5400, 0x57FF].map (decodeTableWord 16) =
      List.replicate 8 none := by decide

/-- The decoded record of `ADD R2,R1` and of `BRA` at 0x1000 (30_encoding.md R120, R126). -/
theorem test_decoded_record :
    decodedRecord 0x4011 0x1002 = some ⟨0x4000, "ADD", .al, [.reg 2, .reg 1], some false, some false, none, none, none⟩ ∧
    decodedRecord 0x3FFE 0x1002 =
      some ⟨0x3C00, "BRA", .toc, [.target 0x0FFE, .currentPc 0x1002, .encodedOffset 0x3FE], none, none, none, none, none⟩ := by
  decide

/-! ## One step on a small state -/

/-- R1, R2, the PSW `p` and the pc `a` given, the other registers 0. -/
def machine (p r1 r2 : Word) (a : Word := 0x1000) : State :=
  { State.reset with regs := #v[0, r1, r2, 0, 0, 0, 0, a], psw := p }

/-- The same with `m` bytes of memory. -/
def small (m : Nat) (s : State) : State := { s with cfg := { s.cfg with memSize := m } }

/-- The state after one step that runs the word `w` at the pc. -/
def ran (w : Nat) (s : State) : Option State :=
  match step (s.withFetchWord 16 w) with
  | .next t => some t
  | .fault _ => none
  | .refused _ => none

/-- R1, R2, the PSW, the pc and the report. -/
def seen (t : State) : Word × Word × Word × Word × Report := (t.reg 1, t.reg 2, t.psw, t.pc, t.report)

/-- Memory 34 12 56 78 from 0x2000 on (95_test_vectors.md, 2.3). -/
def withData (s : State) : State := (s.writeBlock 0x2000 [0x34, 0x12, 0x56, 0x78]).1

/-- The byte 11 at 0x0FFF (95_test_vectors.md, 1.7). -/
def withByte (s : State) : State := s.setByte 0x0FFF 0x11

/-! ### TOC (95_test_vectors.md, 2.7) -/

theorem test_bl_links_and_jumps :
    (ran 0x1000 (machine 7 0 0 0x0100)).map (fun t => (t.reg 5, t.pc, t.psw)) = some (0x0102, 0xE102, 7) := by decide
theorem test_beq_taken : (ran 0x23FF (machine 0x0002 0 0)).map seen = some (0, 0, 0x0002, 0x1000, .none) := by decide
theorem test_beq_not_taken : (ran 0x23FF (machine 0x0000 0 0)).map seen = some (0, 0, 0x0000, 0x1002, .none) := by decide
theorem test_bne_taken : (ran 0x2403 (machine 0x0000 0 0)).map seen = some (0, 0, 0x0000, 0x1008, .none) := by decide
theorem test_bne_not_taken : (ran 0x2403 (machine 0x0002 0 0)).map seen = some (0, 0, 0x0002, 0x1002, .none) := by decide
theorem test_bc_taken : (ran 0x2805 (machine 0x0001 0 0)).map seen = some (0, 0, 0x0001, 0x100C, .none) := by decide
theorem test_bc_not_taken : (ran 0x2805 (machine 0x0016 0 0)).map seen = some (0, 0, 0x0016, 0x1002, .none) := by decide
theorem test_bnc_taken : (ran 0x2C05 (machine 0x0000 0 0)).map seen = some (0, 0, 0x0000, 0x100C, .none) := by decide
theorem test_bnc_not_taken : (ran 0x2C05 (machine 0x0001 0 0)).map seen = some (0, 0, 0x0001, 0x1002, .none) := by decide
theorem test_bn_taken : (ran 0x3005 (machine 0x0004 0 0)).map seen = some (0, 0, 0x0004, 0x100C, .none) := by decide
theorem test_bn_not_taken : (ran 0x3005 (machine 0x0013 0 0)).map seen = some (0, 0, 0x0013, 0x1002, .none) := by decide
theorem test_bge_taken : (ran 0x3405 (machine 0x0014 0 0)).map seen = some (0, 0, 0x0014, 0x100C, .none) := by decide
theorem test_bge_not_taken_when_n_equals_v : (ran 0x3405 (machine 0x0000 0 0)).map seen = some (0, 0, 0x0000, 0x1002, .none) := by decide
theorem test_blt_taken : (ran 0x3805 (machine 0x0010 0 0)).map seen = some (0, 0, 0x0010, 0x100C, .none) := by decide
theorem test_blt_not_taken : (ran 0x3805 (machine 0x0014 0 0)).map seen = some (0, 0, 0x0014, 0x1002, .none) := by decide
theorem test_bra_backward : (ran 0x3FFE (machine 0x0000 0 0)).map seen = some (0, 0, 0x0000, 0x0FFE, .none) := by decide
theorem test_bra_wraps : (ran 0x3C01 (machine 0x0000 0 0 0xFFFE)).map seen = some (0, 0, 0x0000, 0x0002, .none) := by decide

/-! ### AL (95_test_vectors.md, 2.4) -/

theorem test_add_overflows : (ran 0x4011 (machine 0 0x7FFF 1)).map seen = some (0x8000, 1, 0x0014, 0x1002, .none) := by decide
theorem test_add_byte_keeps_high_byte : (ran 0x4051 (machine 0 0x12F0 0x0020)).map seen = some (0x1210, 0x0020, 0x0001, 0x1002, .none) := by decide
theorem test_addc_wraps : (ran 0x4111 (machine 1 0xFFFF 0)).map seen = some (0x0000, 0, 0x0003, 0x1002, .none) := by decide
theorem test_addc_carry_missed : (ran 0x4111 (machine 1 5 0xFFFF)).map seen = some (5, 0xFFFF, 0x0000, 0x1002, .none) := by decide
theorem test_sub_borrows : (ran 0x4211 (machine 0 3 5)).map seen = some (0xFFFE, 5, 0x0015, 0x1002, .none) := by decide
theorem test_sub_byte : (ran 0x4251 (machine 0 0x1200 0x0001)).map seen = some (0x12FF, 0x0001, 0x0015, 0x1002, .none) := by decide
theorem test_subc_adds_carry : (ran 0x4311 (machine 1 5 3)).map seen = some (3, 3, 0x0000, 0x1002, .none) := by decide
theorem test_subc_equal_operands : (ran 0x4311 (machine 1 7 7)).map seen = some (1, 7, 0x0000, 0x1002, .none) := by decide
theorem test_dadd_byte : (ran 0x4451 (machine 0 0x0019 0x0007)).map seen = some (0x0026, 0x0007, 0x0000, 0x1002, .none) := by decide
theorem test_dadd_carries_out : (ran 0x4411 (machine 0 0x9999 1)).map seen = some (0x0000, 1, 0x0003, 0x1002, .none) := by decide
theorem test_cmp_equal : (ran 0x4511 (machine 0 5 5)).map seen = some (5, 5, 0x0002, 0x1002, .none) := by decide
theorem test_cmp_less : (ran 0x4511 (machine 0 3 5)).map seen = some (3, 5, 0x0015, 0x1002, .none) := by decide
theorem test_xor : (ran 0x4611 (machine 0 0x00FF 0x0F0F)).map seen = some (0x0FF0, 0x0F0F, 0x0000, 0x1002, .none) := by decide
theorem test_and : (ran 0x4711 (machine 0 0x00FF 0x0F0F)).map seen = some (0x000F, 0x0F0F, 0x0001, 0x1002, .none) := by decide
theorem test_and_constant_zero : (ran 0x4781 (machine 0 0x1234 0)).map seen = some (0, 0, 0x0003, 0x1002, .none) := by decide
theorem test_or : (ran 0x4811 (machine 0 0x8000 0x0001)).map seen = some (0x8001, 0x0001, 0x0004, 0x1002, .none) := by decide
theorem test_bit_clear_bit : (ran 0x4911 (machine 0 0x0010 3)).map seen = some (0x0010, 3, 0x0003, 0x1002, .none) := by decide
theorem test_bit_index_sixteen : (ran 0x4911 (machine 0 0xFFFF 16)).map seen = some (0xFFFF, 16, 0x0003, 0x1002, .none) := by decide
theorem test_bic : (ran 0x4A11 (machine 0 0x00FF 3)).map seen = some (0x00F7, 3, 0x0001, 0x1002, .none) := by decide
theorem test_bic_byte_high_bit : (ran 0x4A51 (machine 0 0xFFFF 9)).map seen = some (0xFFFF, 9, 0x0004, 0x1002, .none) := by decide
theorem test_bis_constant : (ran 0x4B91 (machine 0 0 0)).map seen = some (0x0004, 0, 0x0000, 0x1002, .none) := by decide
theorem test_bis_sign_bit : (ran 0x4B11 (machine 0 0x1234 15)).map seen = some (0x9234, 15, 0x0014, 0x1002, .none) := by decide

/-! ### REX (95_test_vectors.md, 1.8 and 2.5) -/

theorem test_mov_byte : (ran 0x4C4A (machine 0x15 0xBEEF 0x1234)).map seen = some (0xBEEF, 0x12EF, 0x15, 0x1002, .none) := by decide
theorem test_mov_to_pc : (ran 0x4C0F (machine 0 0x0210 0)).map seen = some (0x0210, 0, 0, 0x0210, .none) := by decide
theorem test_swap : (ran 0x4C8A (machine 0x15 0xAAAA 0x5555)).map seen = some (0x5555, 0xAAAA, 0x15, 0x1002, .none) := by decide
theorem test_swap_with_pc : (ran 0x4CB9 (machine 0 0x2000 0)).map seen = some (0x1002, 0, 0, 0x2000, .none) := by decide

/-! ### SO (95_test_vectors.md, 2.6) -/

theorem test_sra_negative : (ran 0x4D01 (machine 0 0x8004 0)).map seen = some (0xC002, 0, 0x0004, 0x1002, .none) := by decide
theorem test_sra_byte : (ran 0x4D41 (machine 0 0x12F0 0)).map seen = some (0x12F8, 0, 0x0004, 0x1002, .none) := by decide
theorem test_rrc_carry_in : (ran 0x4D09 (machine 1 0x0001 0)).map seen = some (0x8000, 0, 0x0015, 0x1002, .none) := by decide
theorem test_rrc_byte : (ran 0x4D49 (machine 0 0x1281 0)).map seen = some (0x1240, 0, 0x0011, 0x1002, .none) := by decide
theorem test_comp : (ran 0x4D11 (machine 0 0xFFFF 0)).map seen = some (0x0000, 0, 0x0013, 0x1002, .none) := by decide
theorem test_comp_byte : (ran 0x4D51 (machine 0 0x1234 0)).map seen = some (0x12CB, 0, 0x0014, 0x1002, .none) := by decide
theorem test_swpb : (ran 0x4D19 (machine 0 0x8000 0)).map seen = some (0x0080, 0, 0x0011, 0x1002, .none) := by decide
theorem test_sxt : (ran 0x4D21 (machine 0 0x0080 0)).map seen = some (0xFF80, 0, 0x0014, 0x1002, .none) := by decide

/-! ### SYS and unmatched words (95_test_vectors.md, 2.8) -/

theorem test_setpri_reports : (ran 0x4D80 (machine 0x15 0x1111 0)).map seen = some (0x1111, 0, 0x15, 0x1002, .unknownInstruction 0x4D80) := by decide
theorem test_svc_reports : (ran 0x4D90 (machine 0x15 0x1111 0)).map seen = some (0x1111, 0, 0x15, 0x1002, .unknownInstruction 0x4D90) := by decide
theorem test_setcc_reports : (ran 0x4DA1 (machine 0x15 0x1111 0)).map seen = some (0x1111, 0, 0x15, 0x1002, .unknownInstruction 0x4DA1) := by decide
theorem test_clrcc_reports : (ran 0x4DC2 (machine 0x15 0x1111 0)).map seen = some (0x1111, 0, 0x15, 0x1002, .unknownInstruction 0x4DC2) := by decide
theorem test_cex_reports : (ran 0x5000 (machine 0x15 0x1111 0)).map seen = some (0x1111, 0, 0x15, 0x1002, .unknownInstruction 0x5000) := by decide
theorem test_unmatched_reports : (ran 0x4CC0 (machine 0x15 0x1111 0)).map seen = some (0x1111, 0, 0x15, 0x1002, .unknownInstruction 0x4CC0) := by decide

/-! ### MEM (95_test_vectors.md, 2.3 and 1.7) -/

theorem test_ld_post_increment_byte : (ran 0x58CA (withData (machine 0 0x2000 0xFF00))).map seen = some (0x2001, 0xFF34, 0, 0x1002, .none) := by decide
theorem test_ld_post_increment_same_register : (ran 0x5889 (withData (machine 0x15 0x2000 0))).map seen = some (0x2002, 0, 0x15, 0x1002, .none) := by decide
theorem test_ld_fails_on_second_byte : (ran 0x588A (small 0x1000 <| withByte (machine 0 0x0FFF 0x7777 0x0100))).map seen = some (0x0FFF, 0x7777, 0, 0x0102, .executionFailure (.addressOutOfRange 0x1000)) := by decide
theorem test_st_pre_decrement_same_register :
    (ran 0x5F09 (machine 0 0x2002 0)).map (fun t => (seen t, Memory.get? t.mem 0x2000, Memory.get? t.mem 0x2001)) = some ((0x2000, 0, 0, 0x1002, .none), some 0x00, some 0x20) := by decide
theorem test_st_keeps_first_byte :
    (ran 0x5C11 (small 0x1000 (machine 0 0x0FFF 0xBEEF 0x0100))).map (fun t => (seen t, Memory.get? t.mem 0x0FFF, Memory.get? t.mem 0x1000)) = some ((0x0FFF, 0xBEEF, 0, 0x0102, .executionFailure (.addressOutOfRange 0x1000)), some 0xEF, none) := by decide
theorem test_ldr_negative_word_displacement : (ran 0xA00A (withData (machine 0 0x2080 0))).map seen = some (0x2080, 0x1234, 0, 0x1002, .none) := by decide
theorem test_ldr_byte_displacement : (ran 0x81CA (withData (machine 0 0x2000 0x1100))).map seen = some (0x2000, 0x1178, 0, 0x1002, .none) := by decide
theorem test_str_negative_displacement :
    (ran 0xFF91 (machine 0 0x2002 0xBEEF)).map (fun t => (seen t, Memory.get? t.mem 0x2000, Memory.get? t.mem 0x2001)) = some ((0x2002, 0xBEEF, 0, 0x1002, .none), some 0xEF, some 0xBE) := by decide
theorem test_str_largest_displacement :
    (ran 0xDF91 (machine 0 0x2000 0xBEEF)).map (fun t => (seen t, Memory.get? t.mem 0x207E, Memory.get? t.mem 0x207F)) = some ((0x2000, 0xBEEF, 0, 0x1002, .none), some 0xEF, some 0xBE) := by decide

/-! ### RIN (95_test_vectors.md, 2.2) -/

theorem test_movl : (ran 0x61A1 (machine 0x15 0x12FF 0)).map seen = some (0x1234, 0, 0x15, 0x1002, .none) := by decide
theorem test_movl_to_pc : (ran 0x67FF (machine 0 0 0)).map seen = some (0, 0, 0, 0x10FF, .none) := by decide
theorem test_movlz : (ran 0x6829 (machine 0 0xABCD 0)).map seen = some (0x0005, 0, 0, 0x1002, .none) := by decide
theorem test_movls : (ran 0x71A2 (machine 0 0 0)).map seen = some (0, 0xFF34, 0, 0x1002, .none) := by decide
theorem test_movh : (ran 0x7891 (machine 0 0x0034 0)).map seen = some (0x1234, 0, 0, 0x1002, .none) := by decide

/-! ### The cycle (95_test_vectors.md, 2.9) -/

theorem test_sentinel_halts_cleanly :
    (ran 0 (machine 0 0 0 0x3001)).map (fun t => (t.run, t.report, t.pc)) =
      some (.halted .clean, .halted .clean, 0x3003) := by decide

theorem test_fetch_fault_on_second_byte :
    (ran 0x11 (small 0x1000 (machine 0 0 0 0x0FFF))).map (fun t => (t.run, t.report, t.pc)) =
      some (.halted (.fetchFault 0x1000), .halted (.fetchFault 0x1000), 0x0FFF) := by decide

theorem test_add_at_the_top_wraps_the_pc :
    (ran 0x4011 (machine 0 1 2 0xFFFE)).map seen = some (3, 2, 0, 0x0000, .none) := by decide

theorem test_halted_core_takes_no_step : step { State.reset with run := .halted .clean } = .fault (.halted .clean) := by rfl

/-! ### The loader (95_test_vectors.md, 2.10) -/

theorem test_start_record : parseRecord "S9030100FB".toList = some ⟨9, 0x03, 0x0100, [], 0xFB⟩ := by decide

theorem test_program_one_is_accepted :
    (parseRecord "S10B100029681A681140000080".toList).map recordAccepted = some true := by decide

/-- The bytes 1, 2, 3 at the last two addresses of a memory of 0x1000 bytes and past it (20_memory.md R92). -/
def atBound : State × Option BusError := (small 0x1000 (machine 0 0 0)).writeBlock 0x0FFE [1, 2, 3]

theorem test_write_block_stops_at_the_bound :
    atBound.2 = some (.addressOutOfRange 0x1000) ∧ atBound.1.mem = [(0x0FFE, 1), (0x0FFF, 2)] ∧
      ((small 0x1000 (machine 0 0 0)).writeBlock 0x0FFE [1, 2]).2 = none := by decide

/-- Stopped by the bound, ending at it, and clamped by the span before it. -/
theorem test_dump_stops_at_the_bound :
    atBound.1.dump 16 0x0FFE 3 = ([1, 2], some (.addressOutOfRange 0x1000)) ∧
      atBound.1.dump 16 0x0FFE 2 = ([1, 2], none) ∧ atBound.1.dump 1 0x0FFE 3 = ([1], none) := by decide

theorem test_wrong_checksum_is_rejected : recordAccepted ⟨9, 0x03, 0x1000, [], 0xED⟩ = false := by decide


/-! ## Hypotheses that can be met: one state and operands for each statement that has hypotheses -/

/-- `ADD R2,R1` at 0x1000 with R1 = 5 and R2 = 3 (95_test_vectors.md, 1.5). -/
def addState : State := (machine 0 5 3).withFetchWord 16 0x4011

/-- `ST R2,R1` at 0x1000 over the bytes 34 12 at 0x2000. -/
def storeState : State := (withData (machine 0 0x2000 0xBEEF)).withFetchWord 16 0x5C11

theorem witness_EncodeOfDecodeIsTheWord : decodeWord 0x4011 = .ok (.add .word (.reg 2) 1) := by rfl

/-- One word of each shape of record: RIN, LD, LDR, AL with a constant, SWAP, SRA, SXT, SYS and BL. -/
theorem witness_DecodedRecordNamesTheRowAndItsSelectors :
    [0x61A1, 0x5B0A, 0xBF8A, 0x40F9, 0x4C8A, 0x4D41, 0x4D21, 0x4DA1, 0x1FFF].map (decodeTableWord 16) =
      [.movl 0x34 1, .ld ⟨true, true, false⟩ .word 1 2, .ldr 0x7F .word 1 2, .add .byte (.const 7) 1, .swap 1 2,
        .sra .byte 1, .sxt 1, .setcc 1, .bl 0x1FFF].map some ∧
    [0x61A1, 0x5B0A, 0xBF8A, 0x40F9, 0x4C8A, 0x4D41, 0x4D21, 0x4DA1, 0x1FFF].map (decodedRecord · 0x1002) =
      [⟨0x6000, "MOVL", .rin, [.reg 1, .imm8 0x34], none, none, none, none, none⟩,
        ⟨0x5800, "LD", .mem, [.reg 1, .reg 2], none, some false, some true, some true, some false⟩,
        ⟨0x8000, "LDR", .mem, [.reg 1, .reg 2, .disp 0x7F], none, some false, none, none, none⟩,
        ⟨0x4000, "ADD", .al, [.const 7, .reg 1], some true, some true, none, none, none⟩,
        ⟨0x4C80, "SWAP", .rex, [.reg 1, .reg 2], none, some false, none, none, none⟩,
        ⟨0x4D00, "SRA", .so, [.reg 1], none, some true, none, none, none⟩,
        ⟨0x4D20, "SXT", .so, [.reg 1], none, none, none, none, none⟩,
        ⟨0x4DA0, "SETCC", .sys, [], none, none, none, none, none⟩,
        ⟨0x0000, "BL", .toc, [.target 0x1000, .currentPc 0x1002, .encodedOffset 0x1FFF], none, none, none, none, none⟩].map
          some := by
  decide

theorem witness_OpcodeRowsAreDisjoint :
    (opcodeTable[0]).covers 0x1FFF = true ∧ (opcodeTable[40]).covers 0xFFFF = true ∧
      alRow "ADD" 0x4000 .add ∈ opcodeTable ∧ (alRow "ADD" 0x4000 .add).covers 0x40FF = true :=
  ⟨by decide, by decide, by simp [opcodeTable, tocRows, alRows], by decide⟩

/-- Every end of every range of 30_encoding.md R121. -/
theorem witness_UnmatchedWordsReportUnknownInstruction :
    (∀ n ∈ [0x4CC0, 0x4CFF, 0x4D28, 0x4D3F, 0x4D58, 0x4D7F, 0x4D88, 0x4D8F, 0x4DE0, 0x4FFF, 0x5400, 0x57FF],
      Unmatched (BitVec.ofNat 16 n)) ∧
    ((machine 0 0 0).withFetchWord 16 0x57FF).run = .running ∧
    ((machine 0 0 0).withFetchWord 16 0x57FF).fetch = .ok 0x57FF :=
  ⟨by unfold Unmatched; decide, rfl, rfl⟩

/-- Every end of every range of SYS words (30_encoding.md R112). -/
theorem witness_SysInstructionsOnlyReport :
    (∀ n ∈ [0x4D80, 0x4D87, 0x4D90, 0x4DDF, 0x5000, 0x53FF], SysWord (BitVec.ofNat 16 n)) ∧
    ((machine 0 0 0).withFetchWord 16 0x4DDF).run = .running ∧
    ((machine 0 0 0).withFetchWord 16 0x4DDF).fetch = .ok 0x4DDF :=
  ⟨by unfold SysWord; decide, rfl, rfl⟩

/-- Word mode at the largest digits, and byte mode. -/
theorem witness_DaddIsDecimalAdditionOnBcdOperands :
    (∀ i < bcdDigits .word, bcdDigit ((machine 1 0x9999 0x9999).reg 1).toNat i ≤ 9 ∧
      bcdDigit ((machine 1 0x9999 0x9999).alSource .word (.reg 2)).toNat i ≤ 9) ∧
    (∀ i < bcdDigits .byte, bcdDigit ((machine 0 0xAB19 0xAB07).reg 1).toNat i ≤ 9 ∧
      bcdDigit ((machine 0 0xAB19 0xAB07).alSource .byte (.reg 2)).toNat i ≤ 9) ∧
    (∃ t, exec (.dadd .word (.reg 2) 1) (machine 1 0x9999 0x9999) = .next t) ∧
    ∃ t, exec (.dadd .byte (.reg 2) 1) (machine 0 0xAB19 0xAB07) = .next t :=
  ⟨by decide, by decide, ⟨_, rfl⟩, ⟨_, rfl⟩⟩

/-- The last address in range and the first out of range, and a word that wraps at the top. -/
theorem witness_BusTransfersAreLittleEndianAndBounded :
    0xFFFF < (machine 0 0 0).cfg.memSize ∧ ¬0x10000 < (machine 0 0 0).cfg.memSize ∧
      0x0FFF < (small 0x1000 (machine 0 0 0)).cfg.memSize ∧ ¬0x1000 < (small 0x1000 (machine 0 0 0)).cfg.memSize ∧
      TransferInRange (machine 0 0 0) .word 0xFFFF :=
  ⟨by decide, by decide, by decide, by decide, by unfold TransferInRange; decide⟩

theorem witness_StoredWordReadsBack :
    TransferInRange (machine 0 0 0) .word 0xFFFF ∧ TransferInRange (small 0x1000 (machine 0 0 0)) .word 0x0FFE := by
  unfold TransferInRange; decide

/-- The four clauses: an adjusting post form with S = D, one with S ≠ D, a pre form with S = D, and byte mode at the last
byte. -/
theorem witness_LdLoadsAndAdjusts :
    let s := small 0x1000 (machine 0 0x0FFE 0x0FFF)
    TransferInRange s .word (s.indirectEa ⟨false, false, true⟩ .word 1) ∧
      TransferInRange s .word (s.indirectEa ⟨true, true, false⟩ .word 1) ∧
      TransferInRange s .byte (s.indirectEa ⟨false, true, false⟩ .byte 2) := by
  unfold TransferInRange; decide

/-- The first byte out of range, and the second alone. -/
theorem witness_LdAbortsOutOfRange :
    let s := small 0x1000 (machine 0 0x0FFF 0x1000)
    ¬TransferInRange s .word (s.indirectEa ⟨false, false, true⟩ .word 1) ∧
      ¬TransferInRange s .byte (s.indirectEa ⟨false, false, false⟩ .byte 2) ∧
      ¬TransferInRange s .word (s.indirectEa ⟨true, false, true⟩ .word 2) := by
  unfold TransferInRange; decide

theorem witness_StStoresAndAdjusts :
    let s := small 0x1000 (machine 0 0x0FFE 0x0FFF)
    TransferInRange s .word (s.indirectEa ⟨false, false, true⟩ .word 1) ∧
      TransferInRange s .word (s.indirectEa ⟨true, true, false⟩ .word 1) ∧
      TransferInRange s .byte (s.indirectEa ⟨false, true, false⟩ .byte 2) := by
  unfold TransferInRange; decide

theorem witness_StAbortsOutOfRange :
    let s := small 0x1000 (machine 0 0x0FFF 0x1000)
    ¬TransferInRange s .word (s.indirectEa ⟨false, false, true⟩ .word 1) ∧
      ¬TransferInRange s .byte (s.indirectEa ⟨false, false, false⟩ .byte 2) ∧
      ¬TransferInRange s .word (s.indirectEa ⟨true, false, true⟩ .word 2) := by
  unfold TransferInRange; decide

/-- Both clauses, at the last address in range and the first out of it, with the extreme displacements. -/
theorem witness_LdrLoadsIndexed :
    let s := small 0x1000 (machine 0 0x107E 0x0FC0)
    TransferInRange s .word (s.indexedEa 0x40 .word 1) ∧ TransferInRange s .byte (s.indexedEa 0x3F .byte 2) ∧
      ¬TransferInRange s .byte (s.indexedEa 0x7F .byte 1) ∧
      ¬TransferInRange (small 0xFFE (machine 0 0x107E 0)) .word ((machine 0 0x107E 0).indexedEa 0x40 .word 1) := by
  unfold TransferInRange; decide

theorem witness_StrStoresIndexed :
    let s := small 0x1000 (machine 0 0x107E 0x0FC0)
    TransferInRange s .word (s.indexedEa 0x40 .word 1) ∧ TransferInRange s .byte (s.indexedEa 0x3F .byte 2) ∧
      ¬TransferInRange s .byte (s.indexedEa 0x7F .byte 1) ∧
      ¬TransferInRange (small 0xFFE (machine 0 0x107E 0)) .word ((machine 0 0x107E 0).indexedEa 0x40 .word 1) := by
  unfold TransferInRange; decide

/-- Each branch condition and its opposite. -/
theorem witness_BranchesTestTheirConditions :
    (pswZ 0x0002 = true ∧ ¬pswZ 0x0015 = true) ∧ (pswC 0x0001 = true ∧ ¬pswC 0x0016 = true) ∧
      (pswN 0x0004 = true ∧ ¬pswN 0x0013 = true) ∧ ((pswN 0x0014 = true ∧ pswV 0x0014 = true) ∧ ¬pswV 0x0004 = true) ∧
      (¬(pswN 0x0004 = true ↔ pswV 0x0004 = true)) ∧ (¬(pswN 0x0010 = true ↔ pswV 0x0010 = true)) ∧
      (pswN 0x0000 = true ↔ pswV 0x0000 = true) := by
  decide

theorem witness_BlLinksAndJumps :
    ((machine 0 0 0).withFetchWord 16 0).run = .running ∧
      ((machine 0 0 0).withFetchWord 16 0).fetch = .ok (encode (.bl 0)) :=
  ⟨rfl, rfl⟩

theorem witness_StepRunsTheDecodedInstruction :
    addState.run = .running ∧ addState.memRead .word addState.pc = .ok 0x4011 ∧
      decodeWord 0x4011 = .ok (.add .word (.reg 2) 1) ∧ Instr.wellFormed (.add .word (.reg 2) 1) = true :=
  ⟨rfl, rfl, rfl, rfl⟩

theorem witness_SentinelHaltsCleanly :
    ((machine 0 0 0 0xFFFE).withFetchWord 16 0).run = .running ∧
      ((machine 0 0 0 0xFFFE).withFetchWord 16 0).fetch = .ok 0 :=
  ⟨rfl, rfl⟩

/-- The first byte out of range, and the second alone. -/
theorem witness_FetchFailureHalts :
    (small 0x1000 (machine 0 0 0 0x1000)).run = .running ∧
      ¬TransferInRange (small 0x1000 (machine 0 0 0 0x1000)) .word (small 0x1000 (machine 0 0 0 0x1000)).pc ∧
      ¬TransferInRange (small 0x1000 (machine 0 0 0 0x0FFF)) .word (small 0x1000 (machine 0 0 0 0x0FFF)).pc := by
  unfold TransferInRange; decide

theorem witness_StepHasOneOfThreeOutcomes :
    addState.run = .running ∧ ({ addState with run := .halted .clean } : State).run = .halted .clean := ⟨rfl, rfl⟩

theorem witness_UnknownInstructionExactlyOnUnmatchedAndSysWords :
    addState.run = .running ∧ addState.fetch = .ok 0x4011 ∧ ∃ t, step addState = .next t := ⟨rfl, rfl, _, rfl⟩

theorem witness_NoAccessFailsInTheReferenceMemory :
    addState.cfg.memSize = 65536 ∧ addState.cfg.highByteAddr = .wrap16 ∧ addState.run = .running := ⟨rfl, rfl, rfl⟩

theorem witness_OnlyStoresChangeMemory :
    ∃ t, step storeState = .next t ∧ t.byteAt 0x2000 ≠ storeState.byteAt 0x2000 := ⟨_, rfl, by decide⟩

theorem witness_OnlyAlAndSoChangeThePsw :
    ∃ t, step { addState with psw := 1 } = .next t ∧ t.psw ≠ ({ addState with psw := 1 } : State).psw :=
  ⟨_, rfl, by decide⟩

theorem witness_StepKeepsTheInvariant : storeState.Inv ∧ ∃ t, step storeState = .next t := ⟨by decide, _, rfl⟩

theorem witness_StepLeavesInertPswBits : ∃ t, step { addState with psw := 0xFFE8 } = .next t := ⟨_, rfl⟩

theorem witness_InertPswBitsHaveNoEffect :
    (pswC 0xFFE8 = pswC addState.psw ∧ pswZ 0xFFE8 = pswZ addState.psw ∧ pswN 0xFFE8 = pswN addState.psw ∧
      pswV 0xFFE8 = pswV addState.psw) ∧ ∃ t, step addState = .next t :=
  ⟨by decide, _, rfl⟩

theorem witness_ChecksumDecidesAcceptance : recordAccepted ⟨9, 0x03, 0x1000, [], 0xED⟩ = false := by decide

/-- A two-byte record that ends at the last byte of memory, at address 0 so that the last clause's premises hold too. -/
theorem witness_LoadedRecordIsDumpedAndFetched :
    let r : SRecord := ⟨1, 0x05, 0x0000, [0x29, 0x68], 0x69⟩
    recordAccepted r = true ∧ r.type = 1 ∧
      r.address.toNat + r.data.length ≤ (small 2 (machine 0 0 0)).cfg.memSize ∧ r.data.length ≤ 2 ∧ r.address = 0 ∧
      r.data = 0x29 :: 0x68 :: [] := by
  decide

end Sys2Proof.Tests
end

/-! SUPPORT. What one instruction and one step can do to the run state and the report, and the proof that every step has
one of the outcomes of 00_scope.md R19. -/

namespace Sys2Proof.Machine

/-! ## The run state, the report and the parameters under the shared operations -/

theorem SameControl.refl (s : State) : SameControl s s := ⟨rfl, rfl, rfl⟩

theorem SameControl.trans {s t u : State} (h : SameControl s t) (k : SameControl t u) : SameControl s u := by
  obtain ⟨hrun, hreport, hcfg⟩ := h
  obtain ⟨krun, kreport, kcfg⟩ := k
  exact ⟨krun.trans hrun, kreport.trans hreport, kcfg.trans hcfg⟩

theorem OnlyRegs.sameControl {s t : State} {rs : List RegIdx} (h : OnlyRegs s t rs) : SameControl s t := by
  obtain ⟨-, -, -, hcontrol⟩ := h
  exact hcontrol

theorem OnlyRegsAndFlags.sameControl {s t : State} {rs : List RegIdx} (h : OnlyRegsAndFlags s t rs) :
    SameControl s t := by
  obtain ⟨-, -, -, hcontrol⟩ := h
  exact hcontrol

theorem State.setReg_sameControl (s : State) (r : RegIdx) (v : Word) : SameControl s (s.setReg r v) := ⟨rfl, rfl, rfl⟩

theorem State.writeReg_sameControl (s : State) (r : RegIdx) (v : Word) (isByte isHighByte : Bool) :
    SameControl s (s.writeReg r v isByte isHighByte) := by
  rw [State.writeReg_eq]
  exact s.setReg_sameControl r _

theorem State.branchIf_sameControl (s : State) {n : Nat} (cond : Bool) (off : BitVec n) :
    SameControl s (s.branchIf cond off) := by
  obtain ⟨-, -, h⟩ := s.branchIf_spec cond off
  exact h.sameControl

theorem State.runAl_sameControl (s : State) (op : Width → Word → Word → Bool → AluOut) (w : Width) (src : AlSrc)
    (dst : RegIdx) : SameControl s (s.runAl op w src dst) := by
  obtain ⟨-, -, -, h⟩ := s.runAl_spec op w src dst
  exact h.sameControl

theorem State.runSo_sameControl (s : State) (op : Width → Nat → Bool → Nat × Option Bool) (w : Width) (dst : RegIdx) :
    SameControl s (s.runSo op w dst) := by
  obtain ⟨-, -, -, h⟩ := s.runSo_spec op w dst
  exact h.sameControl

theorem State.preAdjust_sameControl (s : State) (m : AdjustMode) (w : Width) (ar : RegIdx) :
    SameControl s (s.preAdjust m w ar) := (s.preAdjust_frame m w ar).1.sameControl

theorem State.postAdjust_sameControl (s : State) (m : AdjustMode) (w : Width) (ar : RegIdx) (ea : Word) :
    SameControl s (s.postAdjust m w ar ea) := (s.postAdjust_frame m w ar ea).1.sameControl

theorem State.memWrite_sameControl (s : State) (w : Width) (a v : Word) : SameControl s (s.memWrite w a v).1 := by
  obtain ⟨-, -, hcontrol⟩ := s.memWrite_frame w a v
  exact hcontrol

/-! ## Transfers complete or abort -/

/-- What a transfer from `s` can leave: it completes with the run state and the report kept, or it aborts with the report
ExecutionFailure in a state that kept them (42_mem.md R196). -/
def CompletesOrAborts (s t : State) : Prop :=
  SameControl s t ∨ ∃ u e, SameControl s u ∧ t = u.abort (.executionFailure e)

theorem CompletesOrAborts.after {s t u : State} (h : SameControl s t) (k : CompletesOrAborts t u) :
    CompletesOrAborts s u := by
  obtain k | ⟨v, e, k, rfl⟩ := k
  · exact .inl (h.trans k)
  · exact .inr ⟨v, e, h.trans k, rfl⟩

theorem State.loadThen_completesOrAborts (s : State) (w : Width) (ea : Word) (dst : RegIdx) {post : State → State}
    (hpost : ∀ u, SameControl u (post u)) : CompletesOrAborts s (s.loadThen w ea dst post) := by
  obtain ⟨e, -, h⟩ | ⟨v, -, h⟩ := s.loadThen_cases w ea dst post <;> rw [h]
  · exact .inr ⟨s, e, .refl s, rfl⟩
  · exact .inl ((s.setReg_sameControl dst _).trans (hpost _))

theorem State.storeThen_completesOrAborts (s : State) (w : Width) (ea v : Word) {post : State → State}
    (hpost : ∀ u, SameControl u (post u)) : CompletesOrAborts s (s.storeThen w ea v post) := by
  have hwrite := s.memWrite_sameControl w ea v
  obtain ⟨e, -, h⟩ | ⟨-, h⟩ := s.storeThen_cases w ea v post <;> rw [h]
  · exact .inr ⟨_, e, hwrite, rfl⟩
  · exact .inl (hwrite.trans (hpost _))

/-! ## Instructions -/

/-- Every instruction has a next state. It keeps the run state and the report, or it is the unclassified case of
47_sys.md R310, or a transfer of it aborts (42_mem.md R196). -/
theorem exec_cases (i : Instr) (s : State) :
    ∃ t, exec i s = .next t ∧ (CompletesOrAborts s t ∨ t = s.unclassified (encode i)) := by
  cases i with
  | bl off =>
    exact ⟨_, rfl, .inl (.inl ((s.setReg_sameControl lrIdx s.pc).trans (State.branchIf_sameControl _ _ off)))⟩
  | beq off | bne off | bc off | bnc off | bn off | bge off | blt off | bra off =>
    exact ⟨_, rfl, .inl (.inl (s.branchIf_sameControl _ off))⟩
  | add w src dst | addc w src dst | sub w src dst | subc w src dst | dadd w src dst | cmp w src dst | xor w src dst
  | and w src dst | or w src dst | bit w src dst | bic w src dst | bis w src dst =>
    exact ⟨_, rfl, .inl (.inl (s.runAl_sameControl _ w src dst))⟩
  | mov w src dst => exact ⟨_, rfl, .inl (.inl (s.writeReg_sameControl dst _ _ _))⟩
  | swap src dst =>
    exact ⟨_, rfl, .inl (.inl ((s.setReg_sameControl dst _).trans (State.setReg_sameControl _ src _)))⟩
  | sra w dst | rrc w dst | comp w dst => exact ⟨_, rfl, .inl (.inl (s.runSo_sameControl _ w dst))⟩
  | swpb dst | sxt dst => exact ⟨_, rfl, .inl (.inl (s.runSo_sameControl _ .word dst))⟩
  | setpri low | svc low | setcc low | clrcc low | cex low => exact ⟨_, rfl, .inr rfl⟩
  | ld mode w src dst =>
    exact ⟨_, rfl, .inl (.after (s.preAdjust_sameControl mode w src)
      (State.loadThen_completesOrAborts _ w _ dst fun u => u.postAdjust_sameControl mode w src _))⟩
  | st mode w src dst =>
    exact ⟨_, rfl, .inl (.after (s.preAdjust_sameControl mode w dst)
      (State.storeThen_completesOrAborts _ w _ _ fun u => u.postAdjust_sameControl mode w dst _))⟩
  | movl imm dst | movh imm dst => exact ⟨_, rfl, .inl (.inl (s.writeReg_sameControl dst _ _ _))⟩
  | movlz imm dst | movls imm dst => exact ⟨_, rfl, .inl (.inl (s.setReg_sameControl dst _))⟩
  | ldr disp w src dst => exact ⟨_, rfl, .inl (s.loadThen_completesOrAborts w _ dst SameControl.refl)⟩
  | str disp w src dst => exact ⟨_, rfl, .inl (s.storeThen_completesOrAborts w _ _ SameControl.refl)⟩

/-! ## The step, one equation per course of the cycle -/

theorem step_of_halted {s : State} {k : HaltKind} (h : s.run = .halted k) : step s = .fault (.halted k) := by
  simp [step, State.cycle, h]

theorem step_of_fetch_error {s : State} {a : Nat} (hrun : s.run = .running)
    (h : s.fetch = .error (.addressOutOfRange a)) : step s = .next (s.halt (.fetchFault a)) := by
  simp [step, State.cycle, State.fetchFailed, hrun, h]

theorem step_of_fetch_ok {s : State} {w : Word} (hrun : s.run = .running) (h : s.fetch = .ok w) :
    step s = s.advance.runWord w := by
  simp [step, State.cycle, hrun, h]

theorem decode_bytes (w : Word) : decode [loByte w, hiByte w] = (decodeWord w).map (·, []) := by
  simp [decode]

theorem State.runWord_zero (s : State) : s.runWord 0 = .next (s.halt .clean) := by simp [State.runWord]

theorem State.runWord_of_unmatched (s : State) {w : Word} {e : DecodeError} (hw : w ≠ 0) (h : decodeWord w = .error e) :
    s.runWord w = .next (s.unclassified w) := by
  rw [State.runWord, if_neg hw, decode_bytes, h]
  rfl

theorem State.runWord_of_decoded (s : State) {w : Word} {i : Instr} (hw : w ≠ 0) (h : decodeWord w = .ok i) :
    s.runWord w = exec i s := by
  rw [State.runWord, if_neg hw, decode_bytes, h]
  rfl

/-- The four courses of a step from Running (40_cycle.md R150): the fetch fails, the word is the sentinel, the word
matches no row, or the instruction it decodes to runs in the advanced state. -/
theorem step_cases {s : State} (hrun : s.run = .running) :
    (∃ a, s.fetch = .error (.addressOutOfRange a) ∧ step s = .next (s.halt (.fetchFault a))) ∨
      (s.fetch = .ok 0 ∧ step s = .next (s.advance.halt .clean)) ∨
      (∃ w e, s.fetch = .ok w ∧ w ≠ 0 ∧ decodeWord w = .error e ∧ step s = .next (s.advance.unclassified w)) ∨
      ∃ w i, s.fetch = .ok w ∧ w ≠ 0 ∧ decodeWord w = .ok i ∧ step s = exec i s.advance := by
  cases hf : s.fetch with
  | error e =>
    obtain ⟨a⟩ := e
    exact .inl ⟨a, rfl, step_of_fetch_error hrun hf⟩
  | ok w =>
    have hstep := step_of_fetch_ok hrun hf
    by_cases hw : w = 0
    · subst hw
      exact .inr (.inl ⟨rfl, hstep.trans s.advance.runWord_zero⟩)
    · cases hd : decodeWord w with
      | error e => exact .inr (.inr (.inl ⟨w, e, rfl, hw, hd, hstep.trans (s.advance.runWord_of_unmatched hw hd)⟩))
      | ok i => exact .inr (.inr (.inr ⟨w, i, rfl, hw, hd, hstep.trans (s.advance.runWord_of_decoded hw hd)⟩))

/-! ## The outcomes of R19 -/

/-- The outcomes of a step from the running state `s` that reaches `t` (00_scope.md R19): no report, a recoverable report,
a halt on the sentinel, a halt on a failed fetch. -/
def StepOutcome (s t : State) : Prop :=
  (t.run = .running ∧ t.report = .none) ∨
    (t.run = .running ∧ ((∃ w, t.report = .unknownInstruction w) ∨ ∃ e, t.report = .executionFailure e)) ∨
    (t.run = .halted .clean ∧ s.fetch = .ok 0) ∨
    ∃ a, t.run = .halted (.fetchFault a) ∧ s.fetch = .error (.addressOutOfRange a)

theorem StepOutcome.of_unclassified {s : State} (hrun : s.run = .running) (w : Word) :
    StepOutcome s (s.advance.unclassified w) :=
  .inr (.inl ⟨hrun, .inl ⟨w, rfl⟩⟩)

theorem StepOutcome.of_completesOrAborts {s t : State} (hrun : s.run = .running)
    (h : CompletesOrAborts s.advance t) : StepOutcome s t := by
  obtain ⟨htrun, htreport, -⟩ | ⟨u, e, ⟨hurun, -, -⟩, rfl⟩ := h
  · exact .inl ⟨htrun.trans hrun, htreport⟩
  · exact .inr (.inl ⟨hurun.trans hrun, .inr ⟨e, rfl⟩⟩)

/-- Every step from Running has a next state, with one of the outcomes of R19. -/
theorem step_outcome {s : State} (hrun : s.run = .running) : ∃ t, step s = .next t ∧ StepOutcome s t := by
  obtain ⟨a, hf, hstep⟩ | ⟨hf, hstep⟩ | ⟨w, -, -, -, -, hstep⟩ | ⟨-, i, -, -, -, hstep⟩ := step_cases hrun <;>
    rw [hstep]
  · exact ⟨_, rfl, .inr (.inr (.inr ⟨a, rfl, hf⟩))⟩
  · exact ⟨_, rfl, .inr (.inr (.inl ⟨rfl, hf⟩))⟩
  · exact ⟨_, rfl, .of_unclassified hrun w⟩
  · obtain ⟨t, hexec, h | rfl⟩ := exec_cases i s.advance
    · exact ⟨t, hexec, .of_completesOrAborts hrun h⟩
    · exact ⟨_, hexec, .of_unclassified hrun _⟩

/-- Settles O41: by the four courses of a step and what one instruction can do; a halted core answers a fault. -/
theorem stepHasOneOfThreeOutcomes : Obligations.StepHasOneOfThreeOutcomes := by
  unfold Obligations.StepHasOneOfThreeOutcomes
  refine ⟨fun s hrun => step_outcome hrun, fun s k hhalt t hstep => ?_⟩
  rw [step_of_halted hhalt] at hstep
  cases hstep

end Sys2Proof.Machine

/-! SUPPORT. Register writes and the flag routine in arithmetic, and what a step can read and write of the status word
(10_state.md R33, R34, R43 to R47). -/

namespace Sys2Proof.Machine

/-! ## Two runs side by side, alike but for the inert PSW bits

Every operation of the machine but the flag routine commutes with replacing the PSW. So a run from `s.setPsw q` is the run
from `s` with the PSW replaced in its last state, as long as the flags that the branches and the carry-in read agree. -/

/-- C, Z, N and V are the same in both status words. -/
def SameFlags (p q : Word) : Prop := pswC q = pswC p ∧ pswZ q = pswZ p ∧ pswN q = pswN p ∧ pswV q = pswV p

theorem SameFlags.withFlags (p q : Word) (f : Flags) : SameFlags (withFlags p f) (withFlags q f) := by
  simp [SameFlags]

/-- `f` neither reads nor writes the PSW. -/
def PswBlind (f : State → State) : Prop := ∀ s q, f (s.setPsw q) = (f s).setPsw q

theorem PswBlind.psw_eq {f : State → State} (hf : PswBlind f) (s : State) : (f s).psw = s.psw := by
  have h : f s = (f s).setPsw s.psw := hf s s.psw
  rw [h, State.setPsw_psw]

theorem PswBlind.comp {f g : State → State} (hf : PswBlind f) (hg : PswBlind g) : PswBlind (f ∘ g) := fun s q =>
  (congrArg f (hg s q)).trans (hf (g s) q)

theorem State.writeReg_setPsw (s : State) (q : Word) (r : RegIdx) (v : Word) (isByte isHighByte : Bool) :
    (s.setPsw q).writeReg r v isByte isHighByte = (s.writeReg r v isByte isHighByte).setPsw q := by
  rw [State.writeReg_eq, State.writeReg_eq]
  rfl

theorem State.branchIf_pswBlind {n : Nat} (cond : Bool) (off : BitVec n) : PswBlind (·.branchIf cond off) := by
  intro s q
  cases cond <;> rfl

theorem State.preAdjust_pswBlind (m : AdjustMode) (w : Width) (ar : RegIdx) : PswBlind (·.preAdjust m w ar) := by
  intro s q
  simp only [State.preAdjust]
  split <;> rfl

theorem State.postAdjust_pswBlind (m : AdjustMode) (w : Width) (ar : RegIdx) (ea : Word) :
    PswBlind (·.postAdjust m w ar ea) := by
  intro s q
  simp only [State.postAdjust]
  split <;> rfl

@[simp] theorem State.alSource_setPsw (s : State) (q : Word) (w : Width) (src : AlSrc) :
    (s.setPsw q).alSource w src = s.alSource w src := by
  cases w <;> cases src <;> rfl

@[simp] theorem State.memRead_setPsw (s : State) (q : Word) (w : Width) (a : Word) :
    (s.setPsw q).memRead w a = s.memRead w a := by
  cases w <;> rfl

@[simp] theorem State.fetch_setPsw (s : State) (q : Word) : (s.setPsw q).fetch = s.fetch := s.memRead_setPsw q .word s.pc

@[simp] theorem transferInRange_setPsw (s : State) (q : Word) (w : Width) (a : Word) :
    TransferInRange (s.setPsw q) w a ↔ TransferInRange s w a := by
  cases w <;> rfl

theorem State.memWrite_setPsw (s : State) (q : Word) (w : Width) (a v : Word) :
    (s.setPsw q).memWrite w a v = ((s.memWrite w a v).1.setPsw q, (s.memWrite w a v).2) := by
  by_cases h : TransferInRange s w a
  · rw [State.memWrite_of_inRange v h, State.memWrite_of_inRange v ((transferInRange_setPsw s q w a).2 h)]
    cases w <;> rfl
  · rw [State.memWrite_of_not_inRange v h,
      State.memWrite_of_not_inRange v (mt (transferInRange_setPsw s q w a).1 h)]
    by_cases hlo : a.toNat < s.cfg.memSize <;> simp only [State.setPsw_cfg, hlo, if_true, if_false] <;> rfl

theorem State.loadThen_setPsw (s : State) (q : Word) (w : Width) (ea : Word) (dst : RegIdx) {post : State → State}
    (hpost : PswBlind post) : (s.setPsw q).loadThen w ea dst post = (s.loadThen w ea dst post).setPsw q := by
  unfold State.loadThen
  rw [State.memRead_setPsw]
  cases s.memRead w ea with
  | error e => rfl
  | ok v => exact (congrArg post (s.writeReg_setPsw q dst v _ _)).trans (hpost _ q)

theorem State.storeThen_setPsw (s : State) (q : Word) (w : Width) (ea v : Word) {post : State → State}
    (hpost : PswBlind post) : (s.setPsw q).storeThen w ea v post = (s.storeThen w ea v post).setPsw q := by
  unfold State.storeThen
  rw [State.memWrite_setPsw]
  obtain ⟨t, _ | e⟩ := s.memWrite w ea v
  · exact hpost t q
  · rfl

/-! ## The flag routine is the only writer -/

/-- What an instruction can make of the PSW: leave it, or, where it `mayUpdate`, replace the four flags. -/
inductive PswAction (mayUpdate : Prop) : (Word → Word) → Prop where
  | keep : PswAction mayUpdate id
  | replace (f : Flags) (h : mayUpdate) : PswAction mayUpdate (withFlags · f)

theorem PswAction.mono {a b : Prop} {g : Word → Word} (hab : a → b) (hg : PswAction a g) : PswAction b g := by
  cases hg with
  | keep => exact .keep
  | replace f h => exact .replace f (hab h)

theorem PswAction.pswInert_eq {a : Prop} {g : Word → Word} (hg : PswAction a g) (p : Word) :
    pswInert (g p) = pswInert p := by
  cases hg with
  | keep => rfl
  | replace f => exact pswInert_withFlags p f

theorem PswAction.sameFlags {a : Prop} {g : Word → Word} (hg : PswAction a g) {p q : Word} (h : SameFlags p q) :
    SameFlags (g p) (g q) := by
  cases hg with
  | keep => exact h
  | replace f => exact .withFlags p q f

/-- status_word_update replaces the flags by four that do not depend on the PSW (10_state.md R44). -/
theorem updateFlags_eq_withFlags (result src dst : Nat) (w : Width) (isSub : Bool) (cOverride : Option Bool) :
    ∃ f, ∀ p, updateFlags p result src dst w isSub cOverride = withFlags p f := by
  cases cOverride <;> exact ⟨_, fun _ => rfl⟩

/-- The outcome `o` of a run from `s` beside the outcome `o'` of the same run from `s.setPsw q`: both have a next state,
they do the same to the PSW, and nothing else tells their next states apart. -/
def RunsAlike (mayUpdate : Prop) (s : State) (q : Word) (o o' : Host.Outcome State Fault Refusal) : Prop :=
  ∃ t g, PswAction mayUpdate g ∧ t.psw = g s.psw ∧ o = .next t ∧ o' = .next (t.setPsw (g q))

theorem RunsAlike.of_pswBlind {a : Prop} {f : State → State} (hf : PswBlind f) (s : State) (q : Word) :
    RunsAlike a s q (.next (f s)) (.next (f (s.setPsw q))) :=
  ⟨f s, id, .keep, hf.psw_eq s, rfl, congrArg _ (hf s q)⟩

theorem RunsAlike.of_aluCommit {a : Prop} (ha : a) (s : State) (q : Word) (w : Width) (dst : RegIdx) (src d : Word)
    (out : AluOut) :
    RunsAlike a s q (.next (s.aluCommit w dst src d out)) (.next ((s.setPsw q).aluCommit w dst src d out)) := by
  obtain ⟨f, hf⟩ := updateFlags_eq_withFlags out.r src.toNat d.toNat w out.isSub out.cOverride
  obtain ⟨-, hpsw, -⟩ := s.aluCommit_spec w dst src d out
  refine ⟨_, _, .replace f ha, hpsw.trans (hf _), rfl, congrArg _ ?_⟩
  simp only [State.aluCommit, State.setPsw_psw, hf]
  split
  · simp only [State.writeWidth, State.writeReg_eq]
    rfl
  · rfl

theorem RunsAlike.of_runAl {a : Prop} (ha : a) {s : State} {q : Word} (h : SameFlags s.psw q)
    (op : Width → Word → Word → Bool → AluOut) (w : Width) (src : AlSrc) (dst : RegIdx) :
    RunsAlike a s q (.next (s.runAl op w src dst)) (.next ((s.setPsw q).runAl op w src dst)) := by
  obtain ⟨hC, -⟩ := h
  simp only [State.runAl, State.setPsw_psw, State.setPsw_reg, State.alSource_setPsw, hC]
  exact .of_aluCommit ha s q w dst _ _ _

theorem RunsAlike.of_runSo {a : Prop} (ha : a) {s : State} {q : Word} (h : SameFlags s.psw q)
    (op : Width → Nat → Bool → Nat × Option Bool) (w : Width) (dst : RegIdx) :
    RunsAlike a s q (.next (s.runSo op w dst)) (.next ((s.setPsw q).runSo op w dst)) := by
  obtain ⟨hC, -⟩ := h
  simp only [State.runSo, State.setPsw_psw, State.setPsw_reg, hC]
  exact .of_aluCommit ha s q w dst _ _ _

/-- A branch reads the PSW only through its condition. -/
theorem RunsAlike.of_branchIf {a : Prop} {c c' : Bool} (hc : c' = c) (s : State) (q : Word) {n : Nat} (off : BitVec n) :
    RunsAlike a s q (.next (s.branchIf c off)) (.next ((s.setPsw q).branchIf c' off)) := by
  subst hc
  exact .of_pswBlind (State.branchIf_pswBlind c' off) s q

/-! ## Instructions -/

/-- The instructions of the families AL and SO, which end in status_word_update (10_state.md R45). -/
def updatesFlags : Instr → Bool
  | .add _ _ _ | .addc _ _ _ | .sub _ _ _ | .subc _ _ _ | .dadd _ _ _ | .cmp _ _ _ => true
  | .xor _ _ _ | .and _ _ _ | .or _ _ _ | .bit _ _ _ | .bic _ _ _ | .bis _ _ _ => true
  | .sra _ _ | .rrc _ _ | .comp _ _ | .swpb _ | .sxt _ => true
  | _ => false

theorem family_of_mem_alRows : ∀ r ∈ alRows, r.family = .al := by decide

theorem family_of_mem_soRows : ∀ r ∈ soRows, r.family = .so := by decide

theorem updatesFlags_of_mem_otherRows :
    ∀ r ∈ tocRows ++ rexRows ++ sysRows ++ memRinRows, ∀ w, updatesFlags (r.fields w) = false := by
  simp [tocRows, rexRows, sysRows, memRinRows, brRow, ldstRow, rinRow, indexedRow, updatesFlags]

theorem family_of_updatesFlags {r : OpcodeRow} (hr : r ∈ opcodeTable) {w : Word} (h : updatesFlags (r.fields w) = true) :
    r.family = .al ∨ r.family = .so := by
  by_cases hal : r ∈ alRows
  · exact .inl (family_of_mem_alRows r hal)
  by_cases hso : r ∈ soRows
  · exact .inr (family_of_mem_soRows r hso)
  have hother : r ∈ tocRows ++ rexRows ++ sysRows ++ memRinRows := by simpa [opcodeTable, hal, hso] using hr
  exact absurd h (by simp [updatesFlags_of_mem_otherRows r hother w])

/-- Every instruction runs alike from two states that differ only in inert PSW bits, and only AL and SO write the PSW. -/
theorem exec_runsAlike (i : Instr) {s : State} {q : Word} (h : SameFlags s.psw q) :
    RunsAlike (updatesFlags i = true) s q (exec i s) (exec i (s.setPsw q)) := by
  have ⟨hC, hZ, hN, hV⟩ := h
  cases i with
  | bl off =>
    exact .of_pswBlind (f := fun u => (u.setReg lrIdx u.pc).branchIf true off)
      (fun u => State.branchIf_pswBlind true off (u.setReg lrIdx u.pc)) s q
  | beq off => exact .of_branchIf hZ s q off
  | bne off => exact .of_branchIf (congrArg _ hZ) s q off
  | bc off => exact .of_branchIf hC s q off
  | bnc off => exact .of_branchIf (congrArg _ hC) s q off
  | bn off => exact .of_branchIf hN s q off
  | bge off => exact .of_branchIf (congrArg₂ _ hN hV) s q off
  | blt off => exact .of_branchIf (congrArg₂ _ hN hV) s q off
  | bra off => exact .of_branchIf rfl s q off
  | add w src dst | addc w src dst | sub w src dst | subc w src dst | dadd w src dst | cmp w src dst | xor w src dst
  | and w src dst | or w src dst | bit w src dst | bic w src dst | bis w src dst => exact .of_runAl rfl h _ w src dst
  | mov w src dst =>
    exact .of_pswBlind (f := fun u => u.writeWidth w dst (u.reg src)) (fun u p => u.writeReg_setPsw p dst _ _ _) s q
  | swap src dst =>
    exact .of_pswBlind (f := fun u => (u.setReg dst (u.reg src)).setReg src (u.reg dst)) (fun _ _ => rfl) s q
  | sra w dst | rrc w dst | comp w dst => exact .of_runSo rfl h _ w dst
  | swpb dst | sxt dst => exact .of_runSo rfl h _ .word dst
  | setpri low | svc low | setcc low | clrcc low | cex low =>
    exact .of_pswBlind (f := (·.unclassified _)) (fun _ _ => rfl) s q
  | ld mode w src dst =>
    refine .of_pswBlind
      (f := (fun u : State => u.loadThen w (u.reg src) dst (·.postAdjust mode w src (u.reg src))) ∘
        (·.preAdjust mode w src)) (.comp (fun u p => ?_) (State.preAdjust_pswBlind mode w src)) s q
    exact u.loadThen_setPsw p w _ dst (State.postAdjust_pswBlind mode w src _)
  | st mode w src dst =>
    refine .of_pswBlind
      (f := (fun u : State => u.storeThen w (u.reg dst) (u.reg src) (·.postAdjust mode w dst (u.reg dst))) ∘
        (·.preAdjust mode w dst)) (.comp (fun u p => ?_) (State.preAdjust_pswBlind mode w dst)) s q
    exact u.storeThen_setPsw p w _ _ (State.postAdjust_pswBlind mode w dst _)
  | movl imm dst | movh imm dst =>
    exact .of_pswBlind (f := (·.writeReg dst _ _ _)) (fun u p => u.writeReg_setPsw p dst _ _ _) s q
  | movlz imm dst | movls imm dst => exact .of_pswBlind (f := (·.setReg dst _)) (fun _ _ => rfl) s q
  | ldr disp w src dst =>
    exact .of_pswBlind (f := fun u => u.loadThen w (u.indexedEa disp w src) dst id)
      (fun u p => u.loadThen_setPsw p w _ dst fun _ _ => rfl) s q
  | str disp w src dst =>
    exact .of_pswBlind (f := fun u => u.storeThen w (u.indexedEa disp w dst) (u.reg src) id)
      (fun u p => u.storeThen_setPsw p w _ _ fun _ _ => rfl) s q

/-! ## The step -/

/-- The word that `s` fetches lies in a row of family AL or SO. -/
def FetchesAlOrSo (s : State) : Prop :=
  ∃ w r, s.fetch = .ok w ∧ r ∈ opcodeTable ∧ r.covers w = true ∧ (r.family = .al ∨ r.family = .so)

theorem FetchesAlOrSo.of_updatesFlags {s : State} {w : Word} {i : Instr} (hf : s.fetch = .ok w)
    (hd : decodeWord w = .ok i) (hi : updatesFlags i = true) : FetchesAlOrSo s := by
  obtain ⟨-, herr, -⟩ | ⟨r, hr, hcov, hok, -⟩ := scan_cases w 0
  · exact nomatch herr.symm.trans hd
  · cases hok.symm.trans hd
    exact ⟨w, r, hf, hr, hcov, family_of_updatesFlags hr hi⟩

/-- Every step from Running goes alike from two states that differ only in inert PSW bits, and writes the PSW only when it
runs an AL or SO instruction. -/
theorem step_runsAlike {s : State} {q : Word} (hrun : s.run = .running) (h : SameFlags s.psw q) :
    RunsAlike (FetchesAlOrSo s) s q (step s) (step (s.setPsw q)) := by
  have hok : ∀ {w}, s.fetch = .ok w → step (s.setPsw q) = (s.advance.setPsw q).runWord w := fun hf =>
    step_of_fetch_ok (s := s.setPsw q) hrun ((s.fetch_setPsw q).trans hf)
  obtain ⟨a, hf, hs⟩ | ⟨hf, hs⟩ | ⟨w, e, hf, hw, hd, hs⟩ | ⟨w, i, hf, hw, hd, hs⟩ := step_cases hrun <;> rw [hs]
  · rw [step_of_fetch_error (s := s.setPsw q) hrun ((s.fetch_setPsw q).trans hf)]
    exact .of_pswBlind (f := (·.halt _)) (fun _ _ => rfl) s q
  · rw [hok hf, State.runWord_zero]
    exact .of_pswBlind (f := (·.advance.halt _)) (fun _ _ => rfl) s q
  · rw [hok hf, State.runWord_of_unmatched _ hw hd]
    exact .of_pswBlind (f := (·.advance.unclassified w)) (fun _ _ => rfl) s q
  · rw [hok hf, State.runWord_of_decoded _ hw hd]
    obtain ⟨t, g, hg, hpsw, ht, ht'⟩ := exec_runsAlike i (s := s.advance) h
    exact ⟨t, g, hg.mono (.of_updatesFlags hf hd), hpsw, ht, ht'⟩

theorem running_of_step_next {s t : State} (h : step s = .next t) : s.run = .running := by
  cases hrun : s.run with
  | running => rfl
  | halted k => exact nomatch (step_of_halted hrun).symm.trans h

/-- What a step that reaches `t` does to the PSW, and that it does the same from `s.setPsw q`. -/
theorem step_pswAction {s t : State} {q : Word} (h : SameFlags s.psw q) (hstep : step s = .next t) :
    ∃ g, PswAction (FetchesAlOrSo s) g ∧ t.psw = g s.psw ∧ step (s.setPsw q) = .next (t.setPsw (g q)) := by
  obtain ⟨u, g, hg, hpsw, hu, hu'⟩ := step_runsAlike (running_of_step_next hstep) h
  cases hu.symm.trans hstep
  exact ⟨g, hg, hpsw, hu'⟩

/-- Settles O49: every operation but the flag routine commutes with replacing the PSW, and the flag routine replaces the
four flags by the same values whatever the PSW. -/
theorem inertPswBitsHaveNoEffect : Obligations.InertPswBitsHaveNoEffect := by
  unfold Obligations.InertPswBitsHaveNoEffect
  intro s t q hC hZ hN hV hstep
  have hflags : SameFlags s.psw q := ⟨hC, hZ, hN, hV⟩
  obtain ⟨g, hg, hpsw, hstep'⟩ := step_pswAction hflags hstep
  exact ⟨_, hstep', rfl, hg.pswInert_eq q, hpsw ▸ hg.sameFlags hflags⟩

/-! ## Which PSW bits a step can change -/

theorem step_psw {s t : State} (hstep : step s = .next t) :
    ∃ g, PswAction (FetchesAlOrSo s) g ∧ t.psw = g s.psw := by
  obtain ⟨g, hg, hpsw, -⟩ := step_pswAction (q := s.psw) ⟨rfl, rfl, rfl, rfl⟩ hstep
  exact ⟨g, hg, hpsw⟩

/-- Settles O45: a step that does not run AL or SO keeps the PSW. -/
theorem onlyAlAndSoChangeThePsw : Obligations.OnlyAlAndSoChangeThePsw := by
  unfold Obligations.OnlyAlAndSoChangeThePsw
  intro s t hstep hne
  obtain ⟨g, hg, hpsw⟩ := step_psw hstep
  cases hg with
  | keep => exact absurd hpsw hne
  | replace f h => exact h

/-- Settles O48: a step keeps the PSW or replaces its four flags. -/
theorem stepLeavesInertPswBits : Obligations.StepLeavesInertPswBits := by
  unfold Obligations.StepLeavesInertPswBits
  intro s t hstep
  obtain ⟨g, hg, hpsw⟩ := step_psw hstep
  exact (pswInert_eq_iff t.psw s.psw).1 (hpsw ▸ hg.pswInert_eq s.psw)

/-! ## The flag routine in arithmetic -/

theorem maskTo_lt (w : Width) (v : Nat) : maskTo w v < 2 ^ widthBits w := Nat.mod_lt _ (Nat.two_pow_pos _)

/-- The top bit of a value of the width is set exactly from half the range up. -/
theorem msbOf_iff {w : Width} {v : Nat} (h : v < 2 ^ widthBits w) : msbOf w v = true ↔ 2 ^ widthBits w ≤ 2 * v := by
  cases w <;> simp only [msbOf, widthBits, Nat.testBit_eq_decide_div_mod_eq, decide_eq_true_eq] at h ⊢ <;> omega

theorem msbOf_maskTo_iff (w : Width) (v : Nat) :
    msbOf w (maskTo w v) = true ↔ 2 ^ widthBits w ≤ 2 * (v % 2 ^ widthBits w) := msbOf_iff (maskTo_lt w v)

/-- Settles O8: by the flags that status_word_update leaves, the top bit read as a comparison. -/
theorem updateFlagsComputesTheFourFlags : Obligations.UpdateFlagsComputesTheFourFlags := by
  unfold Obligations.UpdateFlagsComputesTheFourFlags
  intro p result src dst w isSub cOverride
  obtain ⟨hZ, hN, hC, hV, hinert⟩ := updateFlags_spec p result src dst w isSub cOverride
  refine ⟨?zero, ?negative, ?carry, ?overflow, (pswInert_eq_iff _ p).1 hinert⟩
  case zero => simp [hZ, computeFlags, maskTo]
  case negative => rw [hN]; exact msbOf_maskTo_iff w result
  case carry =>
    rw [hC]
    cases cOverride with
    | some c => rfl
    | none => cases isSub <;> exact decide_eq_true_iff
  case overflow =>
    rw [hV, ← msbOf_maskTo_iff, ← msbOf_maskTo_iff, ← msbOf_maskTo_iff]
    simp only [computeFlags, Bool.and_eq_true, beq_iff_eq, bne_iff_ne, ne_eq]
    rw [Bool.eq_iff_iff (b := msbOf w (maskTo w dst)), Bool.eq_iff_iff (b := msbOf w (maskTo w dst))]

/-- Settles O9: the flags left are those computed, and the computation does not see the PSW. -/
theorem flagComputationIsPure : Obligations.FlagComputationIsPure := by
  unfold Obligations.FlagComputationIsPure
  intro p q result src dst w isSub c
  obtain ⟨f, hf⟩ := updateFlags_eq_withFlags result src dst w isSub c
  simp [hf]

/-! ## Register writes -/

/-- Settles O7: a register write is one `setReg`, of the value or of one of the two merges. -/
theorem registerWriteLaws : Obligations.RegisterWriteLaws := by
  unfold Obligations.RegisterWriteLaws
  intro s r v h
  refine ⟨?_, ?_, ?_, ?_, ?_, fun b => ?frame⟩
  case frame => rw [State.writeReg_eq]; exact .of_setReg s r _
  all_goals simp [State.writeReg_eq]

/-! ## The step of a well-formed instruction, and reset -/

/-- The sentinel word decodes to the one term that is not well formed (30_encoding.md R122). -/
theorem ne_zero_of_wellFormed {w : Word} {i : Instr} (hd : decodeWord w = .ok i) (hi : i.wellFormed = true) : w ≠ 0 := by
  rintro rfl
  have hbl : decodeWord 0 = .ok (.bl 0) := rfl
  cases hbl.symm.trans hd
  exact absurd hi (by decide)

/-- Settles O38: a well-formed instruction's word is not the sentinel, so the step decodes it and runs it in the advanced
state. -/
theorem stepRunsTheDecodedInstruction : Obligations.StepRunsTheDecodedInstruction := by
  unfold Obligations.StepRunsTheDecodedInstruction
  intro s w i hrun hfetch hd hi
  have hstep : step s = exec i s.advance :=
    (step_of_fetch_ok hrun hfetch).trans (s.advance.runWord_of_decoded (ne_zero_of_wellFormed hd hi) hd)
  have hregs : SameRegsBut s s.advance [pcIdx] := fun r hr => by
    rw [State.advance_reg, if_neg (by simpa using hr)]
  exact ⟨s.advance, hstep, s.advance_pc, rfl, hregs, rfl, rfl, rfl, rfl⟩

/-- Settles O46: the state after reset lists no byte of memory, and its PSW is 0. -/
theorem resetSatisfiesTheInvariant : Obligations.ResetSatisfiesTheInvariant := by
  unfold Obligations.ResetSatisfiesTheInvariant
  exact ⟨⟨.nil, fun _ hc => absurd hc List.not_mem_nil, rfl⟩, rfl, rfl⟩

end Sys2Proof.Machine

/-! SUPPORT. Memory: what one instruction and one step can do to it, the word that a store leaves to be read, the blocks of
the host's operations (20_memory.md R73 to R92). -/

namespace Sys2Proof.Machine

/-! ## Memory is written byte by byte, inside the bound -/

/-- `m'` is `m` with one byte below `bound` written. -/
def WritesByteBelow (bound : Nat) (m m' : Memory) : Prop := ∃ a b, a < bound ∧ m' = Memory.set m a b

/-- `m'` is `m` after any number of bytes below `bound` were written. -/
abbrev WritesBelow (bound : Nat) : Memory → Memory → Prop := Relation.ReflTransGen (WritesByteBelow bound)

/-- The part of the invariant that speaks of memory: canonical, and every written byte below `bound`. -/
def Memory.CanonicalBelow (bound : Nat) (m : Memory) : Prop := Memory.wf m ∧ ∀ c ∈ m, c.1 < bound

theorem State.writesBelow_setByte (s : State) {bound a : Nat} (b : Byte) (h : a < bound) :
    WritesBelow bound s.mem (s.setByte a b).mem := .single ⟨a, b, h, rfl⟩

theorem WritesBelow.canonicalBelow {bound : Nat} {m m' : Memory} (h : WritesBelow bound m m')
    (hm : m.CanonicalBelow bound) : m'.CanonicalBelow bound := by
  induction h with
  | refl => exact hm
  | tail _ hwrite ih =>
    obtain ⟨a, b, ha, rfl⟩ := hwrite
    obtain ⟨hwf, hbound⟩ := ih
    refine ⟨Memory.wf_set a b hwf, fun c hc => ?_⟩
    obtain rfl | hc := Memory.mem_set hc
    · exact ha
    · exact hbound c hc

theorem WritesBelow.get?_eq_of_not_lt {bound k : Nat} {m m' : Memory} (h : WritesBelow bound m m') (hk : ¬k < bound) :
    Memory.get? m' k = Memory.get? m k := by
  induction h with
  | refl => rfl
  | tail _ hwrite ih =>
    obtain ⟨a, b, ha, rfl⟩ := hwrite
    rw [Memory.get?_set, if_neg (by rintro rfl; exact hk ha), ih]

theorem State.byteAt_eq_of_get?_eq {s t : State} {a : Nat} (h : Memory.get? t.mem a = Memory.get? s.mem a) :
    t.byteAt a = s.byteAt a := by rw [State.byteAt, h, State.byteAt]

theorem State.memWrite_writesBelow (s : State) (w : Width) (a v : Word) :
    WritesBelow s.cfg.memSize s.mem (s.memWrite w a v).1.mem := by
  cases w with
  | byte =>
    rw [State.memWrite_byte]
    split
    case isTrue h => exact s.writesBelow_setByte _ h
    case isFalse => exact .refl
  | word =>
    rw [State.memWrite_word]
    split
    case isTrue hlo =>
      split
      case isTrue hhi => exact (s.writesBelow_setByte _ hlo).trans (State.writesBelow_setByte _ _ hhi)
      case isFalse => exact s.writesBelow_setByte _ hlo
    case isFalse => exact .refl

/-! ## What each shared operation does to memory -/

@[simp] theorem State.writeReg_mem (s : State) (r : RegIdx) (v : Word) (isByte isHighByte : Bool) :
    (s.writeReg r v isByte isHighByte).mem = s.mem := by
  rw [State.writeReg_eq, State.setReg_mem]

@[simp] theorem State.branchIf_mem (s : State) {n : Nat} (cond : Bool) (off : BitVec n) :
    (s.branchIf cond off).mem = s.mem := by
  obtain ⟨-, h, -⟩ := s.branchIf_spec cond off
  exact h

@[simp] theorem State.runAl_mem (s : State) (op : Width → Word → Word → Bool → AluOut) (w : Width) (src : AlSrc)
    (dst : RegIdx) : (s.runAl op w src dst).mem = s.mem := by
  obtain ⟨-, -, h, -⟩ := s.runAl_spec op w src dst
  exact h

@[simp] theorem State.runSo_mem (s : State) (op : Width → Nat → Bool → Nat × Option Bool) (w : Width) (dst : RegIdx) :
    (s.runSo op w dst).mem = s.mem := by
  obtain ⟨-, -, h, -⟩ := s.runSo_spec op w dst
  exact h

@[simp] theorem State.preAdjust_mem (s : State) (m : AdjustMode) (w : Width) (ar : RegIdx) :
    (s.preAdjust m w ar).mem = s.mem := (s.preAdjust_frame m w ar).2

@[simp] theorem State.postAdjust_mem (s : State) (m : AdjustMode) (w : Width) (ar : RegIdx) (ea : Word) :
    (s.postAdjust m w ar ea).mem = s.mem := (s.postAdjust_frame m w ar ea).2

@[simp] theorem State.preAdjust_cfg (s : State) (m : AdjustMode) (w : Width) (ar : RegIdx) :
    (s.preAdjust m w ar).cfg = s.cfg := by
  obtain ⟨-, -, h⟩ := s.preAdjust_sameControl m w ar
  exact h

theorem State.loadThen_mem (s : State) (w : Width) (ea : Word) (dst : RegIdx) {post : State → State}
    (hpost : ∀ u, (post u).mem = u.mem) : (s.loadThen w ea dst post).mem = s.mem := by
  obtain ⟨e, -, h⟩ | ⟨v, -, h⟩ := s.loadThen_cases w ea dst post <;> rw [h]
  · rfl
  · rw [hpost, State.setReg_mem]

theorem State.storeThen_mem (s : State) (w : Width) (ea v : Word) {post : State → State}
    (hpost : ∀ u, (post u).mem = u.mem) : (s.storeThen w ea v post).mem = (s.memWrite w ea v).1.mem := by
  obtain ⟨e, -, h⟩ | ⟨-, h⟩ := s.storeThen_cases w ea v post <;> rw [h]
  · rfl
  · exact hpost _

/-! ## Instructions -/

/-- The instructions ST and STR (42_mem.md R201). -/
def isStore : Instr → Bool
  | .st _ _ _ _ | .str _ _ _ _ => true
  | _ => false

theorem isStore_iff (i : Instr) :
    isStore i = true ↔ (∃ m w p q, i = .st m w p q) ∨ ∃ v w p q, i = .str v w p q := by
  cases i <;> simp [isStore]

/-- Every instruction keeps memory, but ST and STR, which write bytes inside the bound. -/
theorem exec_mem (i : Instr) (s : State) :
    ∃ t, exec i s = .next t ∧ (t.mem = s.mem ∨ isStore i = true ∧ WritesBelow s.cfg.memSize s.mem t.mem) := by
  cases i with
  | bl off => exact ⟨_, rfl, .inl (State.branchIf_mem _ true off)⟩
  | beq off | bne off | bc off | bnc off | bn off | bge off | blt off | bra off =>
    exact ⟨_, rfl, .inl (s.branchIf_mem _ off)⟩
  | add w src dst | addc w src dst | sub w src dst | subc w src dst | dadd w src dst | cmp w src dst | xor w src dst
  | and w src dst | or w src dst | bit w src dst | bic w src dst | bis w src dst =>
    exact ⟨_, rfl, .inl (s.runAl_mem _ w src dst)⟩
  | mov w src dst => exact ⟨_, rfl, .inl (s.writeReg_mem dst _ _ _)⟩
  | swap src dst => exact ⟨_, rfl, .inl rfl⟩
  | sra w dst | rrc w dst | comp w dst => exact ⟨_, rfl, .inl (s.runSo_mem _ w dst)⟩
  | swpb dst | sxt dst => exact ⟨_, rfl, .inl (s.runSo_mem _ .word dst)⟩
  | setpri low | svc low | setcc low | clrcc low | cex low => exact ⟨_, rfl, .inl rfl⟩
  | ld mode w src dst =>
    refine ⟨_, rfl, .inl ?_⟩
    rw [State.loadThen_mem _ w _ dst fun u => u.postAdjust_mem mode w src _, State.preAdjust_mem]
  | st mode w src dst =>
    refine ⟨_, rfl, .inr ⟨rfl, ?_⟩⟩
    rw [State.storeThen_mem _ w _ _ fun u => u.postAdjust_mem mode w dst _]
    simpa using (s.preAdjust mode w dst).memWrite_writesBelow w _ _
  | movl imm dst | movh imm dst => exact ⟨_, rfl, .inl (s.writeReg_mem dst _ _ _)⟩
  | movlz imm dst | movls imm dst => exact ⟨_, rfl, .inl rfl⟩
  | ldr disp w src dst => exact ⟨_, rfl, .inl (s.loadThen_mem w _ dst fun _ => rfl)⟩
  | str disp w src dst =>
    refine ⟨_, rfl, .inr ⟨rfl, ?_⟩⟩
    rw [s.storeThen_mem w _ _ (post := id) fun _ => rfl]
    exact s.memWrite_writesBelow w _ _

theorem exec_cfg (i : Instr) (s : State) : ∃ t, exec i s = .next t ∧ t.cfg = s.cfg := by
  obtain ⟨t, ht, (⟨-, -, hcfg⟩ | ⟨u, e, ⟨-, -, hcfg⟩, rfl⟩) | rfl⟩ := exec_cases i s
  · exact ⟨t, ht, hcfg⟩
  · exact ⟨_, ht, hcfg⟩
  · exact ⟨_, ht, rfl⟩

/-! ## The step -/

/-- A step that has a next state keeps memory and the parameters, or it is the run of the instruction it fetches. -/
theorem step_keeps_or_execs {s t : State} (hstep : step s = .next t) :
    (t.mem = s.mem ∧ t.cfg = s.cfg) ∨
      ∃ w i, s.fetch = .ok w ∧ decodeWord w = .ok i ∧ exec i s.advance = .next t := by
  obtain ⟨a, -, hs⟩ | ⟨-, hs⟩ | ⟨w, e, -, -, -, hs⟩ | ⟨w, i, hf, -, hd, hs⟩ :=
    step_cases (running_of_step_next hstep)
  case inr.inr.inr => exact .inr ⟨w, i, hf, hd, hs.symm.trans hstep⟩
  all_goals
    cases hs.symm.trans hstep
    exact .inl ⟨rfl, rfl⟩

/-- A step keeps memory, unless the word it fetches decodes to ST or STR; then it writes bytes inside the bound. -/
theorem step_mem {s t : State} (hstep : step s = .next t) :
    t.mem = s.mem ∨
      (∃ w i, s.fetch = .ok w ∧ decodeWord w = .ok i ∧ isStore i = true) ∧ WritesBelow s.cfg.memSize s.mem t.mem := by
  obtain ⟨hmem, -⟩ | ⟨w, i, hf, hd, hexec⟩ := step_keeps_or_execs hstep
  · exact .inl hmem
  · obtain ⟨u, hu, hmem⟩ := exec_mem i s.advance
    cases hu.symm.trans hexec
    exact hmem.imp_right fun ⟨hstore, hwrites⟩ => ⟨⟨w, i, hf, hd, hstore⟩, hwrites⟩

theorem step_cfg {s t : State} (hstep : step s = .next t) : t.cfg = s.cfg := by
  obtain ⟨-, hcfg⟩ | ⟨w, i, -, -, hexec⟩ := step_keeps_or_execs hstep
  · exact hcfg
  · obtain ⟨u, hu, hcfg⟩ := exec_cfg i s.advance
    cases hu.symm.trans hexec
    exact hcfg

theorem step_pswInert {s t : State} (hstep : step s = .next t) : pswInert t.psw = pswInert s.psw := by
  obtain ⟨g, hg, hpsw⟩ := step_psw hstep
  rw [hpsw, hg.pswInert_eq]

theorem step_canonicalBelow {s t : State} (hstep : step s = .next t) (h : s.mem.CanonicalBelow s.cfg.memSize) :
    t.mem.CanonicalBelow s.cfg.memSize := by
  obtain hmem | ⟨-, hwrites⟩ := step_mem hstep
  · rwa [hmem]
  · exact hwrites.canonicalBelow h

/-- Settles O47: a step keeps memory or writes bytes inside the bound, and it keeps the parameters and the inert bits. -/
theorem stepKeepsTheInvariant : Obligations.StepKeepsTheInvariant := by
  unfold Obligations.StepKeepsTheInvariant
  intro s t ⟨hwf, hbound, hinert⟩ hstep
  have hcfg := step_cfg hstep
  obtain ⟨hwf', hbound'⟩ := step_canonicalBelow hstep ⟨hwf, hbound⟩
  exact ⟨⟨hwf', hcfg ▸ hbound', (step_pswInert hstep).trans hinert⟩, hcfg⟩

/-- Settles O44: a step whose word decodes to no store keeps memory, and with it every byte. -/
theorem onlyStoresChangeMemory : Obligations.OnlyStoresChangeMemory := by
  unfold Obligations.OnlyStoresChangeMemory
  intro s t a hstep hne
  obtain hmem | ⟨⟨w, i, hf, hd, hstore⟩, -⟩ := step_mem hstep
  · exact absurd (State.byteAt_eq_of_get?_eq (by rw [hmem])) hne
  · refine ⟨w, hf, ?_⟩
    obtain ⟨m, x, p, q, rfl⟩ | ⟨v, x, p, q, rfl⟩ := (isStore_iff i).1 hstore
    · exact .inl ⟨m, x, p, q, hd⟩
    · exact .inr ⟨v, x, p, q, hd⟩

/-! ## The bus and the words on it -/

/-- Settles O30: by the laws of the bus; a transfer writes bytes inside the bound only. -/
theorem busTransfersAreLittleEndianAndBounded : Obligations.BusTransfersAreLittleEndianAndBounded := by
  unfold Obligations.BusTransfersAreLittleEndianAndBounded
  refine ⟨fun a => ⟨a.toNat_add 1, rfl⟩, fun s a b => ⟨fun h => ?_, fun h => ?_⟩, fun s w a v k hk => ?_, fun s a h => ?_⟩
  · exact ⟨State.busRead_of_lt h, State.busWrite_of_lt b h⟩
  · exact ⟨State.busRead_of_not_lt h, State.busWrite_of_not_lt b h⟩
  · exact State.byteAt_eq_of_get?_eq ((s.memWrite_writesBelow w a v).get?_eq_of_not_lt hk)
  · exact State.memRead_of_inRange h

theorem State.setBytes_word_byteAt_low (s : State) (a v : Word) :
    (s.setBytes .word a v).byteAt a.toNat = loByte v := by
  rw [State.setBytes, State.byteAt_setByte, if_neg (s.next_ne a).symm, State.byteAt_setByte_self]

theorem State.setBytes_word_byteAt_high (s : State) (a v : Word) :
    (s.setBytes .word a v).byteAt (s.next a) = hiByte v := State.byteAt_setByte_self _ _ _

theorem State.valueAt_setBytes_word (s : State) (a v : Word) : (s.setBytes .word a v).valueAt .word a = v := by
  have hnext : (s.setBytes .word a v).next a = s.next a := rfl
  rw [State.valueAt, hnext, s.setBytes_word_byteAt_low, s.setBytes_word_byteAt_high, wordOfBytes_lo_hi]

theorem State.fetch_setPc (s : State) (a : Word) : (s.setPc a).fetch = s.memRead .word a := by
  rw [State.fetch, State.pc_setPc]
  exact s.setReg_memRead pcIdx a .word a

/-- Settles O31: the write in range replaces exactly the two bytes, and the read of these two gives the word back. -/
theorem storedWordReadsBack : Obligations.StoredWordReadsBack := by
  unfold Obligations.StoredWordReadsBack
  intro s a v h
  have hin : TransferInRange (s.setBytes .word a v) .word a := h
  have hread : (s.setBytes .word a v).memRead .word a = .ok v := by
    rw [State.memRead_of_inRange hin, s.valueAt_setBytes_word]
  rw [State.memWrite_of_inRange v h]
  refine ⟨rfl, hread, s.setBytes_word_byteAt_low a v, s.setBytes_word_byteAt_high a v, fun k hlo hhi => ?_,
    (State.fetch_setPc _ a).trans hread⟩
  exact State.setBytes_byteAt_of_notMem v (by simp [storedBytes, hlo, hhi])

/-! ## The host's blocks -/

/-- The failure of a transfer of the `n` bytes from `addr` on that stops at `bound`. -/
def blockError (bound addr n : Nat) : Option BusError :=
  if n = 0 ∨ addr + n ≤ bound then none else some (.addressOutOfRange (max addr bound))

theorem blockError_zero (bound addr : Nat) : blockError bound addr 0 = none := by simp [blockError]

theorem blockError_succ_of_lt {bound addr : Nat} (n : Nat) (h : addr < bound) :
    blockError bound addr (n + 1) = blockError bound (addr + 1) n := by
  have hiff : (n + 1 = 0 ∨ addr + (n + 1) ≤ bound) ↔ (n = 0 ∨ addr + 1 + n ≤ bound) := by omega
  have hmax : max addr bound = max (addr + 1) bound := by omega
  simp only [blockError, hiff, hmax]

theorem blockError_succ_of_not_lt {bound addr : Nat} (n : Nat) (h : ¬addr < bound) :
    blockError bound addr (n + 1) = some (.addressOutOfRange addr) := by
  rw [blockError, if_neg (by omega), show max addr bound = addr by omega]

theorem State.writeBlock_cons_of_lt {s : State} {addr : Nat} (b : Byte) (rest : List Byte) (h : addr < s.cfg.memSize) :
    s.writeBlock addr (b :: rest) = (s.setByte addr b).writeBlock (addr + 1) rest := by
  rw [State.writeBlock, State.busWrite_of_lt b h]

theorem State.writeBlock_cons_of_not_lt {s : State} {addr : Nat} (b : Byte) (rest : List Byte)
    (h : ¬addr < s.cfg.memSize) : s.writeBlock addr (b :: rest) = (s, some (.addressOutOfRange addr)) := by
  rw [State.writeBlock, State.busWrite_of_not_lt b h]

theorem State.writeBlock_byteAt (s : State) (addr : Nat) (bytes : List Byte) (a : Nat) :
    (s.writeBlock addr bytes).1.byteAt a =
      if addr ≤ a ∧ a < addr + bytes.length ∧ a < s.cfg.memSize then bytes.getD (a - addr) 0 else s.byteAt a := by
  induction bytes generalizing s addr with
  | nil => rw [if_neg (by simp; omega)]; rfl
  | cons b rest ih =>
    rw [List.length_cons]
    by_cases h : addr < s.cfg.memSize
    · rw [State.writeBlock_cons_of_lt b rest h, ih, State.setByte_cfg, State.byteAt_setByte]
      by_cases ha : a = addr
      · subst ha
        rw [if_neg (by omega), if_pos rfl, if_pos (by omega), Nat.sub_self, List.getD_cons_zero]
      · rw [if_neg ha]
        by_cases hin : addr + 1 ≤ a ∧ a < addr + 1 + rest.length ∧ a < s.cfg.memSize
        · rw [if_pos hin, if_pos (by omega), show a - addr = a - (addr + 1) + 1 by omega, List.getD_cons_succ]
        · rw [if_neg hin, if_neg (by omega)]
    · rw [State.writeBlock_cons_of_not_lt b rest h, if_neg (by omega)]

theorem State.writeBlock_error (s : State) (addr : Nat) (bytes : List Byte) :
    (s.writeBlock addr bytes).2 = blockError s.cfg.memSize addr bytes.length := by
  induction bytes generalizing s addr with
  | nil => exact (blockError_zero _ _).symm
  | cons b rest ih =>
    rw [List.length_cons]
    by_cases h : addr < s.cfg.memSize
    · rw [State.writeBlock_cons_of_lt b rest h, ih, blockError_succ_of_lt _ h, State.setByte_cfg]
    · rw [State.writeBlock_cons_of_not_lt b rest h, blockError_succ_of_not_lt _ h]

/-- A block write touches memory alone. -/
theorem State.writeBlock_frame (s : State) (addr : Nat) (bytes : List Byte) :
    SameRegsBut s (s.writeBlock addr bytes).1 [] ∧ (s.writeBlock addr bytes).1.psw = s.psw ∧
      SameControl s (s.writeBlock addr bytes).1 := by
  induction bytes generalizing s addr with
  | nil => exact ⟨fun _ _ => rfl, rfl, .refl s⟩
  | cons b rest ih =>
    by_cases h : addr < s.cfg.memSize
    · rw [State.writeBlock_cons_of_lt b rest h]
      exact ih (s.setByte addr b) (addr + 1)
    · rw [State.writeBlock_cons_of_not_lt b rest h]
      exact ⟨fun _ _ => rfl, rfl, .refl s⟩

/-- A block read answers the bytes of its range below the bound, in address order, and the failure at the bound. -/
theorem State.readBlock_eq (s : State) (addr n : Nat) :
    s.readBlock addr n =
      ((List.range' addr (min n (s.cfg.memSize - addr))).map s.byteAt, blockError s.cfg.memSize addr n) := by
  induction n generalizing addr with
  | zero => rw [State.readBlock, Nat.zero_min, blockError_zero]; rfl
  | succ n ih =>
    rw [State.readBlock]
    by_cases h : addr < s.cfg.memSize
    · have hmin : min (n + 1) (s.cfg.memSize - addr) = min n (s.cfg.memSize - (addr + 1)) + 1 := by omega
      rw [State.busRead_of_lt h, hmin, List.range'_succ, List.map_cons, blockError_succ_of_lt n h]
      simp only [ih]
    · have hmin : min (n + 1) (s.cfg.memSize - addr) = 0 := by omega
      rw [State.busRead_of_not_lt h, hmin, blockError_succ_of_not_lt n h]
      rfl

/-- Settles O50: by induction over the block, byte by byte up to the bound. -/
theorem hostMemoryOperations : Obligations.HostMemoryOperations := by
  unfold Obligations.HostMemoryOperations
  refine ⟨fun s addr bytes => ⟨s.writeBlock_byteAt addr bytes, ?_, s.writeBlock_frame addr bytes⟩,
    fun s maxSpan addr length => ?_⟩
  · simp only [s.writeBlock_error, blockError, List.length_eq_zero_iff]
  · rw [State.dump, State.readBlock_eq]
    refine ⟨by simp, fun i hi => ?_, rfl⟩
    rw [List.getD_eq_getElem _ _ hi, List.getElem_map, List.getElem_range', Nat.one_mul]

end Sys2Proof.Machine

/-! SUPPORT. The opcode table's rows by format, the round trip of encoder and decoder, and the decoded record
(30_encoding.md R100 to R126). -/

namespace Sys2Proof

open Sys2Proof.Machine

/-! ## The rows by format -/

/-- The mnemonics that 30_encoding.md R117 and R120 tell apart from the rest of their family. -/
def singledOutMnemonics : List String := ["BL", "SWAP", "SRA", "RRC", "COMP", "LD", "ST", "LDR", "STR"]

theorem not_mem_singledOutMnemonics {m : String} (h : m ∉ singledOutMnemonics) :
    m ≠ "BL" ∧ m ≠ "SWAP" ∧ m ∉ ["SRA", "RRC", "COMP"] ∧ m ∉ ["LD", "ST"] ∧ ¬(m = "LDR" ∨ m = "STR") := by
  simp only [singledOutMnemonics, List.mem_cons, List.not_mem_nil, or_false, not_or] at h
  simp [h]

/-- The eleven shapes of row in the opcode map, after the formats of 30_encoding.md R104 to R112. Each says of its row's
constructor `mk` which number its fixed bits spell, its mnemonic, its word, and the slots and selectors of its record,
which are those of one instruction of the format. A fact about every row is a case split over these. -/
inductive RowFormat : OpcodeRow → Prop
  | bl : RowFormat
      { mnemonic := "BL", family := .toc, pattern := 0x0000, mask := 0xE000, fields := fun w => .bl (off13Field w) }
  | br {m : String} {p : Word} {mk : BitVec 10 → Instr} (cond : BitVec 3)
      (name : m ∉ singledOutMnemonics := by decide)
      (fixed : p.toNat = (8 + cond.toNat) * 2 ^ 10 := by decide)
      (mnemonic : ∀ off, (mk off).mnemonic = m := by exact fun _ => rfl)
      (word : ∀ off, encode (mk off) = encodeBr cond off := by exact fun _ => rfl)
      (record : ∀ pc off, recordFields pc (mk off) = recordFields pc (.beq off) := by exact fun _ _ => rfl) :
      RowFormat (brRow m p mk)
  | al {m : String} {p : Word} {mk : Width → AlSrc → RegIdx → Instr} (op : BitVec 4)
      (name : m ∉ singledOutMnemonics := by decide)
      (fixed : p.toNat = (64 + op.toNat) * 2 ^ 8 := by decide)
      (mnemonic : ∀ w s d, (mk w s d).mnemonic = m := by exact fun _ _ _ => rfl)
      (word : ∀ w s d, encode (mk w s d) = encodeAl op w s d := by exact fun _ _ _ => rfl)
      (record : ∀ pc w s d, recordFields pc (mk w s d) = recordFields pc (.add w s d) := by exact fun _ _ _ _ => rfl) :
      RowFormat (alRow m p mk)
  | mov : RowFormat
      { mnemonic := "MOV", family := .rex, pattern := 0x4C00, mask := 0xFF80,
        fields := fun w => .mov (widthField w) (srcField w) (dstField w) }
  | swap : RowFormat
      { mnemonic := "SWAP", family := .rex, pattern := 0x4C80, mask := 0xFFC0,
        fields := fun w => .swap (srcField w) (dstField w) }
  | so {m : String} {p : Word} {mk : Width → RegIdx → Instr} (op : BitVec 3)
      (name : m = "SRA" ∨ m = "RRC" ∨ m = "COMP" := by decide)
      (fixed : p.toNat = 154 * 128 + op.toNat * 8 := by decide)
      (mnemonic : ∀ w d, (mk w d).mnemonic = m := by exact fun _ _ => rfl)
      (word : ∀ w d, encode (mk w d) = encodeSo (widthBit w) op d := by exact fun _ _ => rfl)
      (record : ∀ pc w d, recordFields pc (mk w d) = recordFields pc (.sra w d) := by exact fun _ _ _ => rfl) :
      RowFormat (soRow m p mk)
  | soWord {m : String} {p : Word} {mk : RegIdx → Instr} (op : BitVec 3)
      (name : m ∉ singledOutMnemonics := by decide)
      (fixed : p.toNat = (2464 + op.toNat) * 2 ^ 3 := by decide)
      (mnemonic : ∀ d, (mk d).mnemonic = m := by exact fun _ => rfl)
      (word : ∀ d, encode (mk d) = encodeSo 0#1 op d := by exact fun _ => rfl)
      (record : ∀ pc d, recordFields pc (mk d) = recordFields pc (.swpb d) := by exact fun _ _ => rfl) :
      RowFormat (soWordRow m p mk)
  | sys {m : String} {p mask : Word} {k : Nat} {mk : BitVec k → Instr} (base : Nat)
      (name : m ∉ singledOutMnemonics := by decide)
      (width : k ≤ 16 := by decide)
      (highBits : mask = BitVec.allOnes 16 <<< k := by decide)
      (fixed : p.toNat = base * 2 ^ k := by decide)
      (mnemonic : ∀ low, (mk low).mnemonic = m := by exact fun _ => rfl)
      (word : ∀ low, (encode (mk low)).toNat = base * 2 ^ k + low.toNat := by exact fun _ => toNat_append_add _ _)
      (record : ∀ pc low, recordFields pc (mk low) = ([], none, none, none, none, none) := by exact fun _ _ => rfl) :
      RowFormat { mnemonic := m, family := .sys, pattern := p, mask, fields := fun w => mk (w.extractLsb' 0 k) }
  | ldst {m : String} {p : Word} {mk : AdjustMode → Width → RegIdx → RegIdx → Instr} (l : BitVec 1)
      (name : m = "LD" ∨ m = "ST" := by decide)
      (fixed : p.toNat = (22 + l.toNat) * 2 ^ 10 := by decide)
      (mnemonic : ∀ a w s d, (mk a w s d).mnemonic = m := by exact fun _ _ _ _ => rfl)
      (word : ∀ a w s d, encode (mk a w s d) = encodeLdSt l a w s d := by exact fun _ _ _ _ => rfl)
      (record : ∀ pc a w s d, recordFields pc (mk a w s d) = recordFields pc (.ld a w s d) := by
        exact fun _ _ _ _ _ => rfl) :
      RowFormat (ldstRow m p mk)
  | rin {m : String} {p : Word} {mk : Byte → RegIdx → Instr} (op : BitVec 2)
      (name : m ∉ singledOutMnemonics := by decide)
      (fixed : p.toNat = (12 + op.toNat) * 2 ^ 11 := by decide)
      (mnemonic : ∀ b d, (mk b d).mnemonic = m := by exact fun _ _ => rfl)
      (word : ∀ b d, encode (mk b d) = encodeRin op b d := by exact fun _ _ => rfl)
      (record : ∀ pc b d, recordFields pc (mk b d) = recordFields pc (.movl b d) := by exact fun _ _ _ => rfl) :
      RowFormat (rinRow m p mk)
  | indexed {m : String} {p : Word} {mk : BitVec 7 → Width → RegIdx → RegIdx → Instr} (l : BitVec 1)
      (name : m = "LDR" ∨ m = "STR" := by decide)
      (fixed : p.toNat = (2 + l.toNat) * 2 ^ 14 := by decide)
      (mnemonic : ∀ v w s d, (mk v w s d).mnemonic = m := by exact fun _ _ _ _ => rfl)
      (word : ∀ v w s d, encode (mk v w s d) = encodeIndexed l v w s d := by exact fun _ _ _ _ => rfl)
      (record : ∀ pc v w s d, recordFields pc (mk v w s d) = recordFields pc (.ldr v w s d) := by
        exact fun _ _ _ _ _ => rfl) :
      RowFormat (indexedRow m p mk)

theorem opcodeTable_format : ∀ r ∈ opcodeTable, RowFormat r := by
  simp only [opcodeTable, tocRows, alRows, rexRows, soRows, sysRows, memRinRows, List.cons_append, List.nil_append,
    List.forall_mem_cons]
  exact ⟨.bl, .br 0, .br 1, .br 2, .br 3, .br 4, .br 5, .br 6, .br 7,
    .al 0, .al 1, .al 2, .al 3, .al 4, .al 5, .al 6, .al 7, .al 8, .al 9, .al 10, .al 11,
    .mov, .swap, .so 0, .so 1, .so 2, .soWord 3, .soWord 4,
    .sys (mk := .setpri) 2480, .sys (mk := .svc) 1241, .sys (mk := .setcc) 621, .sys (mk := .clrcc) 622,
    .sys (mk := .cex) 20, .ldst 0, .ldst 1, .rin 0, .rin 1, .rin 2, .rin 3, .indexed 0, .indexed 1,
    fun _ h => absurd h List.not_mem_nil⟩

theorem RowFormat.mnemonic_fields {r : OpcodeRow} (h : RowFormat r) (w : Word) :
    (r.fields w).mnemonic = r.mnemonic := by
  cases h with
  | bl | mov | swap => rfl
  | br _ _ _ mnemonic | al _ _ _ mnemonic | so _ _ _ mnemonic | soWord _ _ _ mnemonic | sys _ _ _ _ _ mnemonic
  | ldst _ _ _ mnemonic | rin _ _ _ mnemonic | indexed _ _ _ mnemonic => apply mnemonic

/-! ## No two rows meet -/

/-- Rows that cover one word have the same fixed bits where both fix a bit. -/
theorem OpcodeRow.pattern_and_mask_of_covers {r q : OpcodeRow} {w : Word} (hr : r.covers w = true)
    (hq : q.covers w = true) : r.pattern &&& q.mask = q.pattern &&& r.mask := by
  rw [OpcodeRow.covers, beq_iff_eq] at hr hq
  rw [← hr, ← hq, BitVec.and_assoc, BitVec.and_assoc, BitVec.and_comm r.mask]

theorem opcodeTable_pairwise_pattern_ne :
    opcodeTable.Pairwise fun r q => r.pattern &&& q.mask ≠ q.pattern &&& r.mask := by
  decide

theorem opcodeTable_not_both_cover {j k : Nat} (hj : j < opcodeTable.length) (hk : k < opcodeTable.length) {w : Word}
    (hjw : (opcodeTable[j]).covers w = true) (hkw : (opcodeTable[k]).covers w = true) : ¬j < k := fun hlt =>
  List.pairwise_iff_getElem.1 opcodeTable_pairwise_pattern_ne j k hj hk hlt
    (OpcodeRow.pattern_and_mask_of_covers hjw hkw)

theorem opcodeTable_index_eq_of_covers {j k : Nat} (hj : j < opcodeTable.length) (hk : k < opcodeTable.length)
    {w : Word} (hjw : (opcodeTable[j]).covers w = true) (hkw : (opcodeTable[k]).covers w = true) : j = k := by
  have hnotlt := opcodeTable_not_both_cover hj hk hjw hkw
  have hnotgt := opcodeTable_not_both_cover hk hj hkw hjw
  omega

theorem OpcodeRow.eq_of_covers {r q : OpcodeRow} (hr : r ∈ opcodeTable) (hq : q ∈ opcodeTable) {w : Word}
    (hrw : r.covers w = true) (hqw : q.covers w = true) : r = q := by
  obtain ⟨j, hj, rfl⟩ := List.getElem_of_mem hr
  obtain ⟨k, hk, rfl⟩ := List.getElem_of_mem hq
  simp only [opcodeTable_index_eq_of_covers hj hk hrw hqw]

theorem decodeWord_of_covers {r : OpcodeRow} (hr : r ∈ opcodeTable) {w : Word} (h : r.covers w = true) :
    decodeWord w = .ok (r.fields w) := by
  obtain ⟨hnone, -, -⟩ | ⟨q, hq, hqw, hdecode, -⟩ := scan_cases w 0
  · exact absurd h (by simp [hnone r hr])
  · rw [hdecode, OpcodeRow.eq_of_covers hr hq h hqw]

/-- Settles O3: the patterns of any two rows differ at a bit that both masks keep. -/
theorem opcodeRowsAreDisjoint : Obligations.OpcodeRowsAreDisjoint := by
  unfold Obligations.OpcodeRowsAreDisjoint
  exact ⟨fun _ _ hj hk _ hjw hkw => opcodeTable_index_eq_of_covers hj hk hjw hkw,
    fun _ _ hr h => decodeWord_of_covers hr h⟩

/-! ## Fields as the numbers the encoder adds up -/

theorem bitNumber_getLsbD (w : Word) (k : Nat) : bitNumber (w.getLsbD k) = w.toNat / 2 ^ k % 2 := by
  rw [getLsbD_eq_div]
  obtain h | h := Nat.mod_two_eq_zero_or_one (w.toNat / 2 ^ k) <;> simp [h, bitNumber]

theorem bit_widthField (w : Word) : (widthField w).bit = w.getLsbD 6 := by
  rw [widthField]
  cases w.getLsbD 6 <;> rfl

theorem wbNumber_eq_bitNumber (w : Width) : wbNumber w = bitNumber w.bit * 64 := by cases w <;> rfl

theorem wbNumber_widthField (w : Word) : wbNumber (widthField w) = w.toNat / 64 % 2 * 64 := by
  rw [wbNumber_eq_bitNumber, bit_widthField, bitNumber_getLsbD]
  rfl

theorem alSrcNumber_alSrcField (w : Word) :
    alSrcNumber (alSrcField w) = w.toNat / 128 % 2 * 128 + w.toNat / 8 % 8 * 8 := by
  have hbit : bitNumber (w.getLsbD 7) = w.toNat / 128 % 2 := bitNumber_getLsbD w 7
  rw [alSrcField, ← hbit, ← val_srcField]
  cases w.getLsbD 7 <;> simp [bitNumber, alSrcNumber]

theorem bitNumber_le (b : Bool) : bitNumber b ≤ 1 := by cases b <;> decide

theorem wbNumber_cases (w : Width) : wbNumber w = 0 ∨ wbNumber w = 64 := by cases w <;> decide

/-- The number of an AL source holds the R/C bit at bit 7 and the register or index at bits 5:3. -/
theorem alSrcNumber_digits (s : AlSrc) :
    alSrcNumber s = alSrcNumber s / 128 % 2 * 128 + alSrcNumber s / 8 % 8 * 8 := by
  cases s <;> simp only [alSrcNumber] <;> omega

theorem bitNumber_injective : Function.Injective bitNumber := by decide

theorem wbNumber_injective : Function.Injective wbNumber := by
  intro x y h
  cases x <;> cases y <;> simp [wbNumber] at h ⊢

theorem alSrcNumber_injective : Function.Injective alSrcNumber := by
  intro s t h
  cases s with
  | reg r =>
    cases t with
    | reg q => exact congrArg AlSrc.reg (Fin.ext (by simp only [alSrcNumber] at h; omega))
    | const q => simp only [alSrcNumber] at h; omega
  | const r =>
    cases t with
    | reg q => simp only [alSrcNumber] at h; omega
    | const q => exact congrArg AlSrc.const (Fin.ext (by simp only [alSrcNumber] at h; omega))

theorem toNat_encodeBl (off : BitVec 13) : (encode (.bl off)).toNat = off.toNat := by
  simp only [encode, toNat_append_add, BitVec.toNat_ofNat]
  omega

theorem toNat_encodeMov (w : Width) (s d : RegIdx) :
    (encode (.mov w s d)).toNat = 0x4C00 + wbNumber w + s.val * 8 + d.val := by
  have h := toNat_widthBit w
  simp only [encode, toNat_append_add, BitVec.toNat_ofNat, toNat_regBits]
  omega

theorem toNat_encodeSwap (s d : RegIdx) : (encode (.swap s d)).toNat = 0x4C80 + s.val * 8 + d.val := by
  simp only [encode, toNat_append_add, BitVec.toNat_ofNat, toNat_regBits]
  omega

/-! ## The word of what a row decodes -/

theorem OpcodeRow.div_eq_of_covers {r : OpcodeRow} {w : Word} (h : r.covers w = true) (k p : Nat) (hk : k ≤ 16)
    (hm : r.mask = BitVec.allOnes 16 <<< k) (hp : r.pattern.toNat = p * 2 ^ k) : w.toNat / 2 ^ k = p := by
  rwa [covers_high r w k p hk hm hp, decide_eq_true_iff] at h

/-- A row drops no bit of a word it covers: the fixed bits are the pattern's, and every other bit is in a field. -/
theorem RowFormat.encode_fields {r : OpcodeRow} (h : RowFormat r) {w : Word} (hw : r.covers w = true) :
    encode (r.fields w) = w := by
  have hlt := w.isLt
  apply BitVec.eq_of_toNat_eq
  cases h with
  | bl =>
    have hrow := OpcodeRow.div_eq_of_covers hw 13 0 (by decide) rfl rfl
    rw [toNat_encodeBl, toNat_off13Field]
    omega
  | br cond _ fixed _ word =>
    have hrow := OpcodeRow.div_eq_of_covers hw 10 _ (by decide) rfl fixed
    simp only [brRow, word, toNat_encodeBr, toNat_off10Field]
    omega
  | al op _ fixed _ word =>
    have hrow := OpcodeRow.div_eq_of_covers hw 8 _ (by decide) rfl fixed
    simp only [alRow, word, toNat_encodeAl, alSrcNumber_alSrcField, wbNumber_widthField, val_dstField]
    omega
  | mov =>
    have hrow := OpcodeRow.div_eq_of_covers hw 7 152 (by decide) rfl rfl
    simp only [toNat_encodeMov, wbNumber_widthField, val_srcField, val_dstField]
    omega
  | swap =>
    have hrow := OpcodeRow.div_eq_of_covers hw 6 306 (by decide) rfl rfl
    simp only [toNat_encodeSwap, val_srcField, val_dstField]
    omega
  | so op _ fixed _ word =>
    rw [covers_so _ w 154 _ op.isLt rfl fixed, decide_eq_true_iff] at hw
    simp only [soRow, word, toNat_encodeSo, toNat_widthBit, wbNumber_widthField, val_dstField]
    omega
  | soWord op _ fixed _ word =>
    have hrow := OpcodeRow.div_eq_of_covers hw 3 _ (by decide) rfl fixed
    simp only [soWordRow, word, toNat_encodeSo, val_dstField, BitVec.toNat_ofNat]
    omega
  | sys base _ width highBits fixed _ word =>
    have hrow := OpcodeRow.div_eq_of_covers hw _ base width highBits fixed
    rw [word, toNat_lowField, ← hrow, Nat.mul_comm, Nat.div_add_mod]
  | ldst l _ fixed _ word =>
    have hrow := OpcodeRow.div_eq_of_covers hw 10 _ (by decide) rfl fixed
    simp only [ldstRow, word, toNat_encodeLdSt, adjustField, bitNumber_getLsbD, wbNumber_widthField, val_srcField,
      val_dstField]
    omega
  | rin op _ fixed _ word =>
    have hrow := OpcodeRow.div_eq_of_covers hw 11 _ (by decide) rfl fixed
    simp only [rinRow, word, toNat_encodeRin, toNat_immField, val_dstField]
    omega
  | indexed l _ fixed _ word =>
    have hrow := OpcodeRow.div_eq_of_covers hw 14 _ (by decide) rfl fixed
    simp only [indexedRow, word, toNat_encodeIndexed, toNat_dispField, wbNumber_widthField, val_srcField, val_dstField]
    omega

/-- Settles O2: the decoder answers the fields of a row that covers the word. -/
theorem encodeOfDecodeIsTheWord : Obligations.EncodeOfDecodeIsTheWord := by
  unfold Obligations.EncodeOfDecodeIsTheWord
  intro w i hi
  obtain ⟨-, hdecode, -⟩ | ⟨r, hr, hw, hdecode, -⟩ := scan_cases w 0 <;> cases hdecode.symm.trans hi
  exact (opcodeTable_format r hr).encode_fields hw

/-! ## The fields of an encoded word -/

theorem dstField_eq {w : Word} {d : RegIdx} (h : w.toNat % 8 = d.val) : dstField w = d :=
  Fin.ext ((val_dstField w).trans h)

theorem srcField_eq {w : Word} {s : RegIdx} (h : w.toNat / 8 % 8 = s.val) : srcField w = s :=
  Fin.ext ((val_srcField w).trans h)

theorem widthField_eq {w : Word} {x : Width} (h : w.toNat / 64 % 2 * 64 = wbNumber x) : widthField w = x :=
  wbNumber_injective ((wbNumber_widthField w).trans h)

theorem alSrcField_eq {w : Word} {s : AlSrc} (h : w.toNat / 128 % 2 * 128 + w.toNat / 8 % 8 * 8 = alSrcNumber s) :
    alSrcField w = s :=
  alSrcNumber_injective ((alSrcNumber_alSrcField w).trans h)

theorem adjustField_eq {w : Word} {m : AdjustMode} (hpre : w.toNat / 512 % 2 = bitNumber m.pre)
    (hdec : w.toNat / 256 % 2 = bitNumber m.dec) (hinc : w.toNat / 128 % 2 = bitNumber m.inc) : adjustField w = m := by
  rw [adjustField, bitNumber_injective ((bitNumber_getLsbD w 9).trans hpre),
    bitNumber_injective ((bitNumber_getLsbD w 8).trans hdec), bitNumber_injective ((bitNumber_getLsbD w 7).trans hinc)]

theorem immField_eq {w : Word} {b : Byte} (h : w.toNat / 8 % 256 = b.toNat) : immField w = b :=
  BitVec.eq_of_toNat_eq ((toNat_immField w).trans h)

theorem dispField_eq {w : Word} {v : BitVec 7} (h : w.toNat / 128 % 128 = v.toNat) : dispField w = v :=
  BitVec.eq_of_toNat_eq ((toNat_dispField w).trans h)

theorem off13Field_encodeBl (off : BitVec 13) : off13Field (encode (.bl off)) = off :=
  BitVec.extractLsb'_append_eq_right

section
variable {m : String} {p : Word}

theorem brRow_fields_encodeBr {mk : BitVec 10 → Instr} (cond : BitVec 3) (off : BitVec 10) :
    (brRow m p mk).fields (encodeBr cond off) = mk off :=
  congrArg mk BitVec.extractLsb'_append_eq_right

theorem alRow_fields_encodeAl {mk : Width → AlSrc → RegIdx → Instr} (op : BitVec 4) (w : Width) (s : AlSrc)
    (d : RegIdx) : (alRow m p mk).fields (encodeAl op w s d) = mk w s d := by
  have hn := toNat_encodeAl op w s d
  have hw := wbNumber_cases w
  have hs := alSrcNumber_digits s
  simp only [alRow]
  congr
  · exact widthField_eq (by omega)
  · exact alSrcField_eq (by omega)
  · exact dstField_eq (by omega)

theorem soRow_fields_encodeSo {mk : Width → RegIdx → Instr} (op : BitVec 3) (w : Width) (d : RegIdx) :
    (soRow m p mk).fields (encodeSo (widthBit w) op d) = mk w d := by
  have hn := toNat_encodeSo (widthBit w) op d
  have hw := toNat_widthBit w
  simp only [soRow]
  congr
  · exact widthField_eq (by omega)
  · exact dstField_eq (by omega)

theorem soWordRow_fields_encodeSo {mk : RegIdx → Instr} (op : BitVec 3) (d : RegIdx) :
    (soWordRow m p mk).fields (encodeSo 0#1 op d) = mk d :=
  congrArg mk (dstField_eq (by have hn := toNat_encodeSo 0#1 op d; omega))

theorem ldstRow_fields_encodeLdSt {mk : AdjustMode → Width → RegIdx → RegIdx → Instr} (l : BitVec 1) (a : AdjustMode)
    (w : Width) (s d : RegIdx) : (ldstRow m p mk).fields (encodeLdSt l a w s d) = mk a w s d := by
  have hn := toNat_encodeLdSt l a w s d
  have hw := wbNumber_cases w
  have hpre := bitNumber_le a.pre
  have hdec := bitNumber_le a.dec
  have hinc := bitNumber_le a.inc
  simp only [ldstRow]
  congr
  · exact adjustField_eq (by omega) (by omega) (by omega)
  · exact widthField_eq (by omega)
  · exact srcField_eq (by omega)
  · exact dstField_eq (by omega)

theorem rinRow_fields_encodeRin {mk : Byte → RegIdx → Instr} (op : BitVec 2) (b : Byte) (d : RegIdx) :
    (rinRow m p mk).fields (encodeRin op b d) = mk b d := by
  have hn := toNat_encodeRin op b d
  simp only [rinRow]
  congr
  · exact immField_eq (by omega)
  · exact dstField_eq (by omega)

theorem indexedRow_fields_encodeIndexed {mk : BitVec 7 → Width → RegIdx → RegIdx → Instr} (l : BitVec 1)
    (v : BitVec 7) (w : Width) (s d : RegIdx) : (indexedRow m p mk).fields (encodeIndexed l v w s d) = mk v w s d := by
  have hn := toNat_encodeIndexed l v w s d
  have hw := wbNumber_cases w
  simp only [indexedRow]
  congr
  · exact dispField_eq (by omega)
  · exact widthField_eq (by omega)
  · exact srcField_eq (by omega)
  · exact dstField_eq (by omega)

end

theorem mov_fields_encode (w : Width) (s d : RegIdx) :
    Instr.mov (widthField (encode (.mov w s d))) (srcField (encode (.mov w s d))) (dstField (encode (.mov w s d))) =
      .mov w s d := by
  have hn := toNat_encodeMov w s d
  have hw := wbNumber_cases w
  congr
  · exact widthField_eq (by omega)
  · exact srcField_eq (by omega)
  · exact dstField_eq (by omega)

theorem swap_fields_encode (s d : RegIdx) :
    Instr.swap (srcField (encode (.swap s d))) (dstField (encode (.swap s d))) = .swap s d := by
  have hn := toNat_encodeSwap s d
  congr
  · exact srcField_eq (by omega)
  · exact dstField_eq (by omega)

/-! ## The round trip -/

theorem opcodeTable_mnemonics_nodup : (opcodeTable.map (·.mnemonic)).Nodup := by decide

/-- An instruction's word decodes to it when the fields that some row reads from the word give the instruction: that row
has the instruction's mnemonic, and so is the one the word lies in. -/
theorem decodeWord_encode_of_row {i : Instr} (k : Nat) {r : OpcodeRow} (hr : opcodeTable[k]? = some r)
    (hrow : Laws.EncodesInItsRow.Statement i) (hfields : r.fields (encode i) = i) : decodeWord (encode i) = .ok i := by
  have hmem : r ∈ opcodeTable := List.mem_of_getElem? hr
  have hname : r.mnemonic = i.mnemonic := by
    rw [← (opcodeTable_format r hmem).mnemonic_fields (encode i), hfields]
  obtain ⟨q, hq, hqname, hcovers⟩ := hrow
  have hqr : q = r := List.inj_on_of_nodup_map opcodeTable_mnemonics_nodup hq hmem (hqname.trans hname.symm)
  rw [decodeWord_of_covers hq hcovers, hqr, hfields]

open Laws in
theorem decodeWord_encode (i : Instr) : decodeWord (encode i) = .ok i := by
  cases i with
  | bl off => exact decodeWord_encode_of_row 0 rfl (EncodesInItsRow.bl off) (congrArg _ (off13Field_encodeBl off))
  | beq off => exact decodeWord_encode_of_row 1 rfl (EncodesInItsRow.beq off) (brRow_fields_encodeBr _ off)
  | bne off => exact decodeWord_encode_of_row 2 rfl (EncodesInItsRow.bne off) (brRow_fields_encodeBr _ off)
  | bc off => exact decodeWord_encode_of_row 3 rfl (EncodesInItsRow.bc off) (brRow_fields_encodeBr _ off)
  | bnc off => exact decodeWord_encode_of_row 4 rfl (EncodesInItsRow.bnc off) (brRow_fields_encodeBr _ off)
  | bn off => exact decodeWord_encode_of_row 5 rfl (EncodesInItsRow.bn off) (brRow_fields_encodeBr _ off)
  | bge off => exact decodeWord_encode_of_row 6 rfl (EncodesInItsRow.bge off) (brRow_fields_encodeBr _ off)
  | blt off => exact decodeWord_encode_of_row 7 rfl (EncodesInItsRow.blt off) (brRow_fields_encodeBr _ off)
  | bra off => exact decodeWord_encode_of_row 8 rfl (EncodesInItsRow.bra off) (brRow_fields_encodeBr _ off)
  | add w s d => exact decodeWord_encode_of_row 9 rfl (EncodesInItsRow.add w s d) (alRow_fields_encodeAl _ w s d)
  | addc w s d => exact decodeWord_encode_of_row 10 rfl (EncodesInItsRow.addc w s d) (alRow_fields_encodeAl _ w s d)
  | sub w s d => exact decodeWord_encode_of_row 11 rfl (EncodesInItsRow.sub w s d) (alRow_fields_encodeAl _ w s d)
  | subc w s d => exact decodeWord_encode_of_row 12 rfl (EncodesInItsRow.subc w s d) (alRow_fields_encodeAl _ w s d)
  | dadd w s d => exact decodeWord_encode_of_row 13 rfl (EncodesInItsRow.dadd w s d) (alRow_fields_encodeAl _ w s d)
  | cmp w s d => exact decodeWord_encode_of_row 14 rfl (EncodesInItsRow.cmp w s d) (alRow_fields_encodeAl _ w s d)
  | xor w s d => exact decodeWord_encode_of_row 15 rfl (EncodesInItsRow.xor w s d) (alRow_fields_encodeAl _ w s d)
  | and w s d => exact decodeWord_encode_of_row 16 rfl (EncodesInItsRow.and w s d) (alRow_fields_encodeAl _ w s d)
  | or w s d => exact decodeWord_encode_of_row 17 rfl (EncodesInItsRow.or w s d) (alRow_fields_encodeAl _ w s d)
  | bit w s d => exact decodeWord_encode_of_row 18 rfl (EncodesInItsRow.bit w s d) (alRow_fields_encodeAl _ w s d)
  | bic w s d => exact decodeWord_encode_of_row 19 rfl (EncodesInItsRow.bic w s d) (alRow_fields_encodeAl _ w s d)
  | bis w s d => exact decodeWord_encode_of_row 20 rfl (EncodesInItsRow.bis w s d) (alRow_fields_encodeAl _ w s d)
  | mov w s d => exact decodeWord_encode_of_row 21 rfl (EncodesInItsRow.mov w s d) (mov_fields_encode w s d)
  | swap s d => exact decodeWord_encode_of_row 22 rfl (EncodesInItsRow.swap s d) (swap_fields_encode s d)
  | sra w d => exact decodeWord_encode_of_row 23 rfl (EncodesInItsRow.sra w d) (soRow_fields_encodeSo _ w d)
  | rrc w d => exact decodeWord_encode_of_row 24 rfl (EncodesInItsRow.rrc w d) (soRow_fields_encodeSo _ w d)
  | comp w d => exact decodeWord_encode_of_row 25 rfl (EncodesInItsRow.comp w d) (soRow_fields_encodeSo _ w d)
  | swpb d => exact decodeWord_encode_of_row 26 rfl (EncodesInItsRow.swpb d) (soWordRow_fields_encodeSo _ d)
  | sxt d => exact decodeWord_encode_of_row 27 rfl (EncodesInItsRow.sxt d) (soWordRow_fields_encodeSo _ d)
  | setpri low =>
    exact decodeWord_encode_of_row 28 rfl (EncodesInItsRow.setpri low) (congrArg _ BitVec.extractLsb'_append_eq_right)
  | svc low =>
    exact decodeWord_encode_of_row 29 rfl (EncodesInItsRow.svc low) (congrArg _ BitVec.extractLsb'_append_eq_right)
  | setcc low =>
    exact decodeWord_encode_of_row 30 rfl (EncodesInItsRow.setcc low) (congrArg _ BitVec.extractLsb'_append_eq_right)
  | clrcc low =>
    exact decodeWord_encode_of_row 31 rfl (EncodesInItsRow.clrcc low) (congrArg _ BitVec.extractLsb'_append_eq_right)
  | cex low =>
    exact decodeWord_encode_of_row 32 rfl (EncodesInItsRow.cex low) (congrArg _ BitVec.extractLsb'_append_eq_right)
  | ld m w s d =>
    exact decodeWord_encode_of_row 33 rfl (EncodesInItsRow.ld m w s d) (ldstRow_fields_encodeLdSt _ m w s d)
  | st m w s d =>
    exact decodeWord_encode_of_row 34 rfl (EncodesInItsRow.st m w s d) (ldstRow_fields_encodeLdSt _ m w s d)
  | movl b d => exact decodeWord_encode_of_row 35 rfl (EncodesInItsRow.movl b d) (rinRow_fields_encodeRin _ b d)
  | movlz b d => exact decodeWord_encode_of_row 36 rfl (EncodesInItsRow.movlz b d) (rinRow_fields_encodeRin _ b d)
  | movls b d => exact decodeWord_encode_of_row 37 rfl (EncodesInItsRow.movls b d) (rinRow_fields_encodeRin _ b d)
  | movh b d => exact decodeWord_encode_of_row 38 rfl (EncodesInItsRow.movh b d) (rinRow_fields_encodeRin _ b d)
  | ldr v w s d =>
    exact decodeWord_encode_of_row 39 rfl (EncodesInItsRow.ldr v w s d) (indexedRow_fields_encodeIndexed _ v w s d)
  | str v w s d =>
    exact decodeWord_encode_of_row 40 rfl (EncodesInItsRow.str v w s d) (indexedRow_fields_encodeIndexed _ v w s d)

/-- Settles O1: the word decodes to the instruction, and the word's two bytes make the word. -/
theorem decodeOfEncodeIsTheInstruction : Obligations.DecodeOfEncodeIsTheInstruction := by
  unfold Obligations.DecodeOfEncodeIsTheInstruction
  intro i
  have hword := decodeWord_encode i
  exact ⟨hword, by rw [decode_bytes, hword]; rfl⟩

theorem decodeWord_of_encode_eq {i : Instr} {w : Word} (h : encode i = w) : decodeWord w = .ok i :=
  h ▸ decodeWord_encode i

/-- Settles O6: each word is the encoder's word of the instruction. -/
theorem sampleWordsDecode : Obligations.SampleWordsDecode := by
  unfold Obligations.SampleWordsDecode
  refine ⟨?_, ?_, ?_, ?_, ?_, ?_, ?_, ?_, ?_, ?_, ?_⟩ <;> exact decodeWord_of_encode_eq (by decide)

/-! ## The unmatched words -/

theorem ite_ok_eq_error_iff {ε α : Type} {p : Prop} [Decidable p] {a : α} {x : Except ε α} {e : ε} :
    (if p then .ok a else x) = Except.error e ↔ ¬p ∧ x = .error e := by
  by_cases hp : p <;> simp [hp]

/-- The words that fail every range test of the scan are those of the six ranges. -/
theorem unmatched_iff_decodeWord_error (w : Word) : Unmatched w ↔ decodeWord w = .error (.noMatch w) := by
  have hlt := w.isLt
  rw [decodeWord_eq_byRange]
  simp only [decodeByRange, ite_ok_eq_error_iff, and_true, Unmatched]
  constructor <;> omega

theorem ne_zero_of_unmatched {w : Word} (h : Unmatched w) : w ≠ 0 := by
  rintro rfl
  revert h
  unfold Unmatched
  decide

theorem advance_unclassified_reportsUnknown (s : State) (w : Word) :
    ReportsUnknown s (s.advance.unclassified w) w := by
  refine ⟨s.advance_pc, rfl, fun r hr => ?_, rfl, fun _ => rfl, rfl, rfl⟩
  exact (s.advance_reg r).trans (if_neg (by simpa using hr))

/-- Settles O4: the scan fails exactly on the six ranges, 0x0000 is in none, and the unclassified case of the executor
does nothing but report. -/
theorem unmatchedWordsReportUnknownInstruction : Obligations.UnmatchedWordsReportUnknownInstruction := by
  unfold Obligations.UnmatchedWordsReportUnknownInstruction
  refine ⟨unmatched_iff_decodeWord_error, fun s w hrun hfetch hw => ?_⟩
  refine ⟨s.advance.unclassified w, ?_, advance_unclassified_reportsUnknown s w⟩
  rw [step_of_fetch_ok hrun hfetch]
  exact s.advance.runWord_of_unmatched (ne_zero_of_unmatched hw) ((unmatched_iff_decodeWord_error w).1 hw)

/-! ## Operand slots as arithmetic on the raw word -/

theorem dstField_eq_ofNat (w : Word) : dstField w = Fin.ofNat 8 w.toNat := dstField_eq rfl

theorem srcField_eq_ofNat (w : Word) : srcField w = Fin.ofNat 8 (w.toNat / 8) := srcField_eq rfl

theorem immField_eq_ofNat (w : Word) : immField w = BitVec.ofNat 8 (w.toNat / 8) := immField_eq rfl

theorem dispField_eq_ofNat (w : Word) : dispField w = BitVec.ofNat 7 (w.toNat / 128) := dispField_eq rfl

theorem off13Field_eq_ofNat (w : Word) : off13Field w = BitVec.ofNat 13 w.toNat :=
  BitVec.eq_of_toNat_eq (toNat_off13Field w)

theorem off10Field_eq_ofNat (w : Word) : off10Field w = BitVec.ofNat 10 w.toNat :=
  BitVec.eq_of_toNat_eq (toNat_off10Field w)

theorem branchTarget_eq_targetOf {n : Nat} (pc : Word) (off : BitVec n) :
    branchTarget pc off = targetOf pc off.toInt := by
  rw [targetOf, BitVec.ofInt_add, BitVec.ofInt_mul, branchTarget, sext]
  simp [BitVec.signExtend]

/-- The operand slots of a branch: its target, the advanced pc and the encoded offset. -/
def branchSlots {n : Nat} (pc : Word) (off : BitVec n) : List OperandSlot :=
  [.target (branchTarget pc off), .currentPc pc, .encodedOffset (off.setWidth 16)]

theorem branchSlots_ofNat (pc : Word) (n v : Nat) :
    branchSlots pc (BitVec.ofNat n v) =
      [.target (targetOf pc (BitVec.ofNat n v).toInt), .currentPc pc, .encodedOffset (BitVec.ofNat 16 (v % 2 ^ n))] := by
  have hoff : (BitVec.ofNat n v).setWidth 16 = BitVec.ofNat 16 (v % 2 ^ n) := by
    rw [← BitVec.toNat_inj, BitVec.toNat_setWidth, BitVec.toNat_ofNat, BitVec.toNat_ofNat]
  rw [branchSlots, branchTarget_eq_targetOf, hoff]

theorem listedSlots_toc (w pc : Word) (mnemonic : String) :
    listedSlots w pc .toc mnemonic =
      if mnemonic = "BL" then branchSlots pc (off13Field w) else branchSlots pc (off10Field w) := by
  rw [off13Field_eq_ofNat, off10Field_eq_ofNat, branchSlots_ofNat, branchSlots_ofNat]
  rfl

theorem recordFields_bl (pc : Word) (off : BitVec 13) :
    recordFields pc (.bl off) = (branchSlots pc off, none, none, none, none, none) := rfl

theorem recordFields_beq (pc : Word) (off : BitVec 10) :
    recordFields pc (.beq off) = (branchSlots pc off, none, none, none, none, none) := rfl

/-- The slot of an AL source operand. -/
def alSrcSlot : AlSrc → OperandSlot
  | .reg r => .reg r
  | .const c => .const c

/-- The R/C selector of an AL source operand. -/
def alSrcRc : AlSrc → Bool
  | .reg _ => false
  | .const _ => true

theorem recordFields_add (pc : Word) (x : Width) (s : AlSrc) (d : RegIdx) :
    recordFields pc (.add x s d) = ([alSrcSlot s, .reg d], some (alSrcRc s), some x.bit, none, none, none) := by
  cases s <;> rfl

theorem alSrcRc_alSrcField (w : Word) : alSrcRc (alSrcField w) = w.getLsbD 7 := by
  rw [alSrcField]
  cases w.getLsbD 7 <;> rfl

theorem alSrcSlot_alSrcField (w : Word) :
    alSrcSlot (alSrcField w) = if w.toNat / 128 % 2 = 1 then .const (srcField w) else .reg (srcField w) := by
  rw [alSrcField, getLsbD_eq_div]
  by_cases h : w.toNat / 128 % 2 = 1 <;> simp [h, alSrcSlot]

/-! ## The decoded record -/

/-- The record of `w` under row `r`, field by field, from the slots and selectors of its instruction. -/
theorem OpcodeRow.record_eq (r : OpcodeRow) (w pc : Word) {operands : List OperandSlot}
    {rc wb prpo dec inc : Option Bool} (h : recordFields pc (r.fields w) = (operands, rc, wb, prpo, dec, inc)) :
    r.record w pc = ⟨w &&& r.mask, r.mnemonic, r.family, operands, rc, wb, prpo, dec, inc⟩ := by
  rw [OpcodeRow.record, h]

/-- The record of `w` under row `r` holds the slots and the selectors that 30_encoding.md R117 and R120 list. -/
def OpcodeRow.RecordsAsListed (r : OpcodeRow) (w pc : Word) : Prop :=
  (r.record w pc).operands = listedSlots w pc r.family r.mnemonic ∧ SelectorsAsListed w (r.record w pc)

theorem RowFormat.recordsAsListed {r : OpcodeRow} (h : RowFormat r) {w : Word} (hw : r.covers w = true) (pc : Word) :
    r.RecordsAsListed w pc := by
  unfold OpcodeRow.RecordsAsListed
  cases h with
  | bl =>
    rw [OpcodeRow.record_eq _ w pc (recordFields_bl pc _), listedSlots_toc]
    simp [SelectorsAsListed]
  | br cond name _ _ _ record =>
    obtain ⟨hbl, hswap, hso, hldst, -⟩ := not_mem_singledOutMnemonics name
    rw [OpcodeRow.record_eq _ w pc ((record _ _).trans (recordFields_beq pc _)), brRow, listedSlots_toc]
    simp [SelectorsAsListed, hbl, hswap, hso, hldst]
  | al op name _ _ _ record =>
    obtain ⟨-, hswap, -, hldst, -⟩ := not_mem_singledOutMnemonics name
    rw [OpcodeRow.record_eq _ w pc ((record _ _ _ _).trans (recordFields_add _ _ _ _))]
    simp [listedSlots, SelectorsAsListed, alRow, hswap, hldst, alSrcSlot_alSrcField, alSrcRc_alSrcField, bit_widthField,
      srcField_eq_ofNat, dstField_eq_ofNat]
  | mov =>
    rw [OpcodeRow.record_eq _ w pc rfl]
    simp [listedSlots, SelectorsAsListed, dstField_eq_ofNat, srcField_eq_ofNat, bit_widthField]
  | swap =>
    have hrow := OpcodeRow.div_eq_of_covers hw 6 306 (by decide) rfl rfl
    have hbit : w.getLsbD 6 = false := by rw [getLsbD_eq_div, hrow]; rfl
    rw [OpcodeRow.record_eq _ w pc rfl, SelectorsAsListed, hbit]
    simp [listedSlots, dstField_eq_ofNat, srcField_eq_ofNat]
  | so op name _ _ _ record =>
    rw [OpcodeRow.record_eq _ w pc (record _ _ _)]
    obtain rfl | rfl | rfl := name <;>
      simp [listedSlots, SelectorsAsListed, soRow, dstField_eq_ofNat, bit_widthField]
  | soWord op name _ _ _ record =>
    obtain ⟨-, hswap, hso, hldst, -⟩ := not_mem_singledOutMnemonics name
    rw [OpcodeRow.record_eq _ w pc (record _ _)]
    simp [listedSlots, SelectorsAsListed, soWordRow, hswap, hso, hldst, dstField_eq_ofNat]
  | sys base name _ _ _ _ _ record =>
    obtain ⟨-, hswap, hso, hldst, -⟩ := not_mem_singledOutMnemonics name
    rw [OpcodeRow.record_eq _ w pc (record _ _)]
    simp [listedSlots, SelectorsAsListed, hswap, hso, hldst]
  | ldst l name _ _ _ record =>
    rw [OpcodeRow.record_eq _ w pc (record _ _ _ _ _)]
    obtain rfl | rfl := name <;>
      simp [listedSlots, SelectorsAsListed, ldstRow, dstField_eq_ofNat, srcField_eq_ofNat, bit_widthField, adjustField]
  | rin op name _ _ _ record =>
    obtain ⟨-, hswap, hso, hldst, -⟩ := not_mem_singledOutMnemonics name
    rw [OpcodeRow.record_eq _ w pc (record _ _ _)]
    simp [listedSlots, SelectorsAsListed, rinRow, hswap, hso, hldst, dstField_eq_ofNat, immField_eq_ofNat]
  | indexed l name _ _ _ record =>
    rw [OpcodeRow.record_eq _ w pc (record _ _ _ _ _)]
    obtain rfl | rfl := name <;>
      simp [listedSlots, SelectorsAsListed, indexedRow, dstField_eq_ofNat, srcField_eq_ofNat, bit_widthField,
        dispField_eq_ofNat]

theorem decodedRecord_eq_none_iff (w pc : Word) : decodedRecord w pc = none ↔ Unmatched w := by
  rw [unmatched_iff_decodeWord_error]
  obtain ⟨-, hdecode, hrecord⟩ | ⟨r, -, -, hdecode, hrecord⟩ := scan_cases w pc <;> simp [hdecode, hrecord]

/-- Settles O5: instruction and record come from one row that covers the word, and every row records what is listed. -/
theorem decodedRecordNamesTheRowAndItsSelectors : Obligations.DecodedRecordNamesTheRowAndItsSelectors := by
  unfold Obligations.DecodedRecordNamesTheRowAndItsSelectors
  intro w pc
  refine ⟨decodedRecord_eq_none_iff w pc, fun i d hi hd => ?_⟩
  obtain ⟨-, hdecode, -⟩ | ⟨r, hr, hw, hdecode, hrecord⟩ := scan_cases w pc <;> cases hdecode.symm.trans hi
  cases hrecord.symm.trans hd
  have hformat := opcodeTable_format r hr
  obtain ⟨hslots, hselectors⟩ := hformat.recordsAsListed hw pc
  exact ⟨⟨r, hr, hw, beq_iff_eq.1 hw, rfl, rfl⟩, (hformat.mnemonic_fields w).symm, hslots, hselectors⟩

/-! ## The AL source operand -/

/-- Settles O10: word mode is the operand itself and byte mode its low byte extended; the table is read by entry. -/
theorem alSourceOperandForms : Obligations.AlSourceOperandForms := by
  unfold Obligations.AlSourceOperandForms
  exact ⟨fun _ _ => rfl, fun _ _ => rfl, fun _ _ => rfl, by decide⟩

end Sys2Proof

/-! SUPPORT. The two halts of a cycle: on the sentinel after the pc's advance, on a failed fetch before it (40_cycle.md
R151, R153, R155). -/

namespace Sys2Proof.Machine

theorem State.advance_sameRegsBut_pc (s : State) : SameRegsBut s s.advance [pcIdx] := fun r hr =>
  (s.advance_reg r).trans (if_neg fun hpc => hr (List.mem_singleton.2 hpc))

theorem step_of_fetch_zero {s : State} (hrun : s.run = .running) (hfetch : s.fetch = .ok 0) :
    step s = .next (s.advance.halt .clean) :=
  (step_of_fetch_ok hrun hfetch).trans s.advance.runWord_zero

theorem step_of_fetch_not_inRange {s : State} (hrun : s.run = .running) (h : ¬TransferInRange s .word s.pc) :
    step s = .next (s.halt (.fetchFault (firstFailing s s.pc))) :=
  step_of_fetch_error hrun (State.memRead_of_not_inRange h)

/-- Settles O39: the sentinel halts the advanced state, and a halt writes only the run state and the report. -/
theorem sentinelHaltsCleanly : Obligations.SentinelHaltsCleanly := by
  unfold Obligations.SentinelHaltsCleanly
  intro s hrun hfetch
  have hregs : SameRegsBut s (s.advance.halt .clean) [pcIdx] := fun r hr =>
    (s.advance.halt_reg .clean r).trans (s.advance_sameRegsBut_pc r hr)
  have hpc : (s.advance.halt .clean).pc = s.pc + 2 := (s.advance.halt_pc .clean).trans s.advance_pc
  exact ⟨_, step_of_fetch_zero hrun hfetch, rfl, rfl, hpc, hregs, rfl, fun _ => rfl, rfl⟩

/-- Settles O40: the fetch is a word read at the pc, whose error names the first byte out of range; the halt is of the
state before the advance. -/
theorem fetchFailureHalts : Obligations.FetchFailureHalts := by
  unfold Obligations.FetchFailureHalts
  intro s hrun hrange
  have hregs : SameRegsBut s (s.halt (.fetchFault (firstFailing s s.pc))) [] := fun r _ => s.halt_reg _ r
  exact ⟨_, step_of_fetch_not_inRange hrun hrange, rfl, rfl, hregs, rfl, fun _ => rfl, rfl⟩

end Sys2Proof.Machine

/-! SUPPORT. The RIN family (41_rin.md): the row of an encoded word, and the one register that an immediate goes to. -/

namespace Sys2Proof.Machine

/-- The row that an instruction's word lies in is the one with its mnemonic, so the mask is that row's. -/
theorem encodedAs_of_row {i : Instr} {n : Nat} (k : Nat) {r : OpcodeRow} (hr : opcodeTable[k]? = some r)
    (hname : r.mnemonic = i.mnemonic) (hword : (encode i).toNat = n) (hrow : Laws.EncodesInItsRow.Statement i) :
    EncodedAs i n r.mask := by
  obtain ⟨q, hq, hqname, hcovers⟩ := hrow
  have hqr : q = r :=
    List.inj_on_of_nodup_map opcodeTable_mnemonics_nodup hq (List.mem_of_getElem? hr) (hqname.trans hname.symm)
  exact ⟨hword, q, hq, hqname, congrArg (·.mask) hqr, hcovers⟩

@[simp] theorem loByte_setWidth (b : Byte) : loByte (b.setWidth 16) = b :=
  BitVec.eq_of_toNat_eq (by rw [toNat_loByte, BitVec.toNat_setWidth]; omega)

/-- Settles O11: a byte write to the low half. -/
theorem movlReplacesTheLowByte : Obligations.MovlReplacesTheLowByte := by
  unfold Obligations.MovlReplacesTheLowByte
  intro b d s
  obtain ⟨-, hlow, hhigh, -, -, hframe⟩ := registerWriteLaws s d (b.setWidth 16) false
  exact ⟨encodedAs_of_row 35 rfl rfl (toNat_encodeRin _ b d) (Laws.EncodesInItsRow.movl b d), _, rfl,
    by simpa using hlow, hhigh, hframe true⟩

/-- Settles O12: a word write of the immediate below a zero byte. -/
theorem movlzZeroesTheHighByte : Obligations.MovlzZeroesTheHighByte := by
  unfold Obligations.MovlzZeroesTheHighByte
  intro b d s
  have hreg : ((s.setReg d (wordOfBytes b 0x00)).reg d).toNat = b.toNat := by
    simp [toNat_wordOfBytes]
  exact ⟨encodedAs_of_row 36 rfl rfl (toNat_encodeRin _ b d) (Laws.EncodesInItsRow.movlz b d), _, rfl, hreg,
    .of_setReg s d _⟩

/-- Settles O13: a word write of the immediate below the byte 0xFF. -/
theorem movlsSetsTheHighByte : Obligations.MovlsSetsTheHighByte := by
  unfold Obligations.MovlsSetsTheHighByte
  intro b d s
  have hreg : ((s.setReg d (wordOfBytes b 0xFF)).reg d).toNat = 0xFF00 + b.toNat := by
    simp [toNat_wordOfBytes]
  exact ⟨encodedAs_of_row 37 rfl rfl (toNat_encodeRin _ b d) (Laws.EncodesInItsRow.movls b d), _, rfl, hreg,
    .of_setReg s d _⟩

/-- Settles O14: a byte write to the high half. -/
theorem movhReplacesTheHighByte : Obligations.MovhReplacesTheHighByte := by
  unfold Obligations.MovhReplacesTheHighByte
  intro b d s
  obtain ⟨-, -, -, hhigh, hlow, hframe⟩ := registerWriteLaws s d (b.setWidth 16) true
  exact ⟨encodedAs_of_row 38 rfl rfl (toNat_encodeRin _ b d) (Laws.EncodesInItsRow.movh b d), _, rfl,
    by simpa using hhigh, hlow, hframe true⟩

end Sys2Proof.Machine

/-! SUPPORT. The MEM family (42_mem.md): the address a register gives after its adjustments, a transfer in range and out of
it, and the machine in which no transfer is out of range. -/

namespace Sys2Proof.Machine

/-! ## Address adjustment (R193) -/

theorem adjustAddr_eq_adjustedBy (m : AdjustMode) (w : Width) (x : Word) : adjustAddr m w x = adjustedBy m w x := by
  obtain ⟨pre, dec, inc⟩ := m
  cases dec <;> cases inc <;>
    simp [adjustAddr, adjustedBy, bitNumber, BitVec.ofInt_add, BitVec.ofInt_neg, BitVec.sub_eq_add_neg]

theorem modeAdjusts_iff (m : AdjustMode) : modeAdjusts m = true ↔ m.inc = true ∨ m.dec = true := by simp [modeAdjusts]

theorem adjustAddr_of_not_modeAdjusts {m : AdjustMode} (h : modeAdjusts m = false) (w : Width) (x : Word) :
    adjustAddr m w x = x := by
  obtain ⟨hinc, hdec⟩ := Bool.or_eq_false_iff.1 h
  simp [adjustAddr, hinc, hdec]

theorem State.setReg_reg_self (s : State) (r : RegIdx) : s.setReg r (s.reg r) = s := by
  simp [State.setReg, State.reg, Vector.get_eq_getElem]

/-- The pre-adjust as one register write, in every mode: where nothing is adjusted, the register gets its own value. -/
theorem State.preAdjust_eq_setReg (s : State) (m : AdjustMode) (w : Width) (ar : RegIdx) :
    s.preAdjust m w ar = s.setReg ar (s.indirectEa m w ar) := by
  unfold State.indirectEa
  obtain ⟨-, -, h⟩ | ⟨-, h⟩ := s.preAdjust_eq m w ar <;> rw [h]
  · rw [State.reg_setReg_self]
  · rw [State.setReg_reg_self]

theorem State.indirectEa_eq (s : State) (m : AdjustMode) (w : Width) (ar : RegIdx) :
    s.indirectEa m w ar = if m.pre then adjustedBy m w (s.reg ar) else s.reg ar := by
  rw [← adjustAddr_eq_adjustedBy, State.indirectEa]
  obtain ⟨hpre, -, h⟩ | ⟨hpre | hmode, h⟩ := s.preAdjust_eq m w ar <;> rw [h]
  · rw [State.reg_setReg_self, if_pos hpre]
  · rw [if_neg (by simp [hpre])]
  · rw [adjustAddr_of_not_modeAdjusts hmode, ite_self]

theorem State.postAdjust_reg_of_ne (s : State) (m : AdjustMode) (w : Width) {ar r : RegIdx} (ea : Word) (h : r ≠ ar) :
    (s.postAdjust m w ar ea).reg r = s.reg r := by
  obtain ⟨⟨hregs, -⟩, -⟩ := s.postAdjust_frame m w ar ea
  exact hregs r (by simpa using h)

@[simp] theorem State.postAdjust_byteAt (s : State) (m : AdjustMode) (w : Width) (ar : RegIdx) (ea : Word) (k : Nat) :
    (s.postAdjust m w ar ea).byteAt k = s.byteAt k :=
  State.byteAt_eq_of_get?_eq (by rw [State.postAdjust_mem])

/-- Every register keeps what it had before the post-adjust, unless it is the address register of an adjusting post form. -/
theorem State.postAdjust_reg_of_not_wins {t : State} {m : AdjustMode} {w : Width} {ar r : RegIdx} {ea : Word}
    (h : ¬(m.pre = false ∧ (m.inc = true ∨ m.dec = true) ∧ ar = r)) : (t.postAdjust m w ar ea).reg r = t.reg r := by
  obtain ⟨hpre, hmode, -⟩ | ⟨-, hstay⟩ := t.postAdjust_eq m w ar ea
  · exact t.postAdjust_reg_of_ne m w ea fun hr => h ⟨hpre, (modeAdjusts_iff m).1 hmode, hr.symm⟩
  · rw [hstay]

/-- In an adjusting post form the address register ends adjusted, whatever the transfer left in it. -/
theorem State.postAdjust_reg_of_post {m : AdjustMode} (hpre : m.pre = false) (hmode : modeAdjusts m = true) (s t : State)
    (w : Width) (ar : RegIdx) :
    (t.postAdjust m w ar (s.indirectEa m w ar)).reg ar = adjustedBy m w (s.reg ar) := by
  rw [State.postAdjust, if_pos (by simp [hpre, hmode]), State.reg_setReg_self, s.indirectEa_eq, if_neg (by simp [hpre]),
    adjustAddr_eq_adjustedBy]

/-- Where the transfer leaves the effective address in the address register, that register ends adjusted once. -/
theorem State.postAdjust_reg_of_reg_eq {s t : State} {m : AdjustMode} {w : Width} {ar : RegIdx}
    (h : t.reg ar = s.indirectEa m w ar) :
    (t.postAdjust m w ar (s.indirectEa m w ar)).reg ar = adjustedBy m w (s.reg ar) := by
  obtain ⟨hpre, hmode, -⟩ | ⟨hstay, ht⟩ := t.postAdjust_eq m w ar (s.indirectEa m w ar)
  · exact State.postAdjust_reg_of_post hpre hmode s t w ar
  · rw [ht, h, s.indirectEa_eq]
    obtain hpre | hmode := hstay
    · rw [if_pos hpre]
    · rw [← adjustAddr_eq_adjustedBy, adjustAddr_of_not_modeAdjusts hmode, ite_self]

/-! ## Transfers in range and out of it (R196) -/

theorem State.loadThen_of_inRange {s : State} {w : Width} {ea : Word} (h : TransferInRange s w ea) (dst : RegIdx)
    (post : State → State) :
    s.loadThen w ea dst post = post (s.setReg dst (widthValue w (s.reg dst) (s.valueAt w ea))) := by
  rw [State.loadThen, State.memRead_of_inRange h, ← State.writeWidth_eq]

theorem State.loadThen_of_not_inRange {s : State} {w : Width} {ea : Word} (h : ¬TransferInRange s w ea) (dst : RegIdx)
    (post : State → State) :
    s.loadThen w ea dst post = s.abort (.executionFailure (.addressOutOfRange (firstFailing s ea))) := by
  rw [State.loadThen, State.memRead_of_not_inRange h]

theorem State.storeThen_of_inRange {s : State} {w : Width} {ea : Word} (h : TransferInRange s w ea) (v : Word)
    (post : State → State) : s.storeThen w ea v post = post (s.setBytes w ea v) := by
  rw [State.storeThen, State.memWrite_of_inRange v h]

theorem State.storeThen_of_not_inRange {s : State} {w : Width} {ea : Word} (h : ¬TransferInRange s w ea) (v : Word)
    (post : State → State) :
    s.storeThen w ea v post =
      (s.memWrite w ea v).1.abort (.executionFailure (.addressOutOfRange (firstFailing s ea))) := by
  rw [State.storeThen, State.memWrite_of_not_inRange v h]

@[simp] theorem State.loByte_valueAt (s : State) (w : Width) (ea : Word) :
    loByte (s.valueAt w ea) = s.byteAt ea.toNat := by
  cases w <;> simp [State.valueAt]

theorem State.setBytes_byteAt_low (s : State) (w : Width) (ea v : Word) :
    (s.setBytes w ea v).byteAt ea.toNat = loByte v := by
  cases w with
  | word => exact s.setBytes_word_byteAt_low ea v
  | byte => exact s.byteAt_setByte_self _ _

theorem State.memWrite_byteAt_of_not_inRange {s : State} {w : Width} {ea : Word} (h : ¬TransferInRange s w ea) (v : Word)
    (k : Nat) :
    (s.memWrite w ea v).1.byteAt k = if k = ea.toNat ∧ ea.toNat < s.cfg.memSize then loByte v else s.byteAt k := by
  rw [State.memWrite_of_not_inRange v h]
  by_cases hlo : ea.toNat < s.cfg.memSize <;> simp [hlo, State.byteAt_setByte]

/-- Everything a store with a byte out of range leaves: the report, its first byte where that is in range, no more. -/
theorem State.storeThen_aborts {s : State} {w : Width} {ea : Word} (h : ¬TransferInRange s w ea) (v : Word)
    (post : State → State) :
    let t := s.storeThen w ea v post
    t.report = .executionFailure (.addressOutOfRange (firstFailing s ea)) ∧
      (∀ k, t.byteAt k = if k = ea.toNat ∧ ea.toNat < s.cfg.memSize then loByte v else s.byteAt k) ∧
      (∀ r, t.reg r = s.reg r) ∧ t.psw = s.psw ∧ t.run = s.run ∧ t.cfg = s.cfg := by
  obtain ⟨hregs, hpsw, hrun, -, hcfg⟩ := s.memWrite_frame w ea v
  simp only [State.storeThen_of_not_inRange h]
  exact ⟨rfl, State.memWrite_byteAt_of_not_inRange h v, hregs, hpsw, hrun, hcfg⟩

/-! ## LD and ST -/

theorem exec_ld (m : AdjustMode) (w : Width) (a d : RegIdx) (s : State) :
    exec (.ld m w a d) s = .next ((s.setReg a (s.indirectEa m w a)).loadThen w (s.indirectEa m w a) d
      fun t => t.postAdjust m w a (s.indirectEa m w a)) := by
  rw [← State.preAdjust_eq_setReg]
  rfl

/-- The state in which LD makes its post-adjust: the address register pre-adjusted, the destination loaded over it. -/
def State.afterLoad (s : State) (m : AdjustMode) (w : Width) (a d : RegIdx) : State :=
  let ea := s.indirectEa m w a
  (s.setReg a ea).setReg d (widthValue w (if a = d then ea else s.reg d) (s.valueAt w ea))

theorem State.afterLoad_reg_dst (s : State) (m : AdjustMode) (w : Width) (a d : RegIdx) :
    (s.afterLoad m w a d).reg d =
      widthValue w (if a = d then s.indirectEa m w a else s.reg d) (s.valueAt w (s.indirectEa m w a)) :=
  State.reg_setReg_self _ d _

theorem State.afterLoad_reg_of_ne (s : State) (m : AdjustMode) (w : Width) {a d : RegIdx} (h : a ≠ d) :
    (s.afterLoad m w a d).reg a = s.indirectEa m w a :=
  (State.reg_setReg_of_ne _ _ h).trans (s.reg_setReg_self a _)

theorem State.afterLoad_frame (s : State) (m : AdjustMode) (w : Width) (a d : RegIdx) :
    OnlyRegs s (s.afterLoad m w a d) [a, d] :=
  ((OnlyRegs.of_setReg s a _).mono (by simp)).trans ((OnlyRegs.of_setReg _ d _).mono (by simp))

theorem exec_ld_of_inRange {s : State} {m : AdjustMode} {w : Width} {a d : RegIdx}
    (h : TransferInRange s w (s.indirectEa m w a)) :
    exec (.ld m w a d) s = .next ((s.afterLoad m w a d).postAdjust m w a (s.indirectEa m w a)) := by
  have hread : (s.setReg a (s.indirectEa m w a)).reg d = if a = d then s.indirectEa m w a else s.reg d := by
    simp only [State.reg_setReg, eq_comm]
  rw [exec_ld, State.loadThen_of_inRange (s := s.setReg a (s.indirectEa m w a)) h, hread]
  rfl

theorem exec_st (m : AdjustMode) (w : Width) (a d : RegIdx) (s : State) :
    exec (.st m w a d) s = .next ((s.setReg d (s.indirectEa m w d)).storeThen w (s.indirectEa m w d)
      (if a = d then s.indirectEa m w d else s.reg a) fun t => t.postAdjust m w d (s.indirectEa m w d)) := by
  rw [← State.reg_setReg, ← State.preAdjust_eq_setReg]
  rfl

/-- Settles O32: the pre-adjust, the load and the post-adjust each write one register, the later over the earlier. -/
theorem ldLoadsAndAdjusts : Obligations.LdLoadsAndAdjusts := by
  unfold Obligations.LdLoadsAndAdjusts
  intro m w a d s ea postWins
  refine ⟨encodedAs_of_row 33 rfl rfl (toNat_encodeLdSt _ m w a d) (Laws.EncodesInItsRow.ld m w a d),
    s.indirectEa_eq m w a, fun hin => ⟨_, exec_ld_of_inRange hin, ?_, fun haddr => ?_, fun hloses => ?_⟩⟩
  · obtain ⟨hpost, -⟩ := (s.afterLoad m w a d).postAdjust_frame m w a ea
    exact (s.afterLoad_frame m w a d).trans (hpost.mono (by simp))
  · obtain ⟨hpre, hmode, -⟩ | hne := haddr
    · exact State.postAdjust_reg_of_post hpre ((modeAdjusts_iff m).2 hmode) s _ w a
    · exact State.postAdjust_reg_of_reg_eq (s.afterLoad_reg_of_ne m w hne)
  · rw [State.postAdjust_reg_of_not_wins hloses, State.afterLoad_reg_dst]
    refine ⟨(loByte_widthValue w _ _).trans (s.loByte_valueAt w ea), ?_⟩
    cases w with
    | word => exact hiByte_wordOfBytes _ _
    | byte => exact hiByte_mergeLow _ _

/-- Settles O33: the load aborts in the state that the pre-adjust left. -/
theorem ldAbortsOutOfRange : Obligations.LdAbortsOutOfRange := by
  unfold Obligations.LdAbortsOutOfRange
  intro m w a d s ea hout
  refine ⟨_, exec_ld m w a d s, ?_⟩
  rw [State.loadThen_of_not_inRange (s := s.setReg a ea) hout]
  exact ⟨rfl, fun r => s.reg_setReg a r ea, rfl, fun _ => rfl, rfl, rfl⟩

theorem exec_st_of_inRange {s : State} {m : AdjustMode} {w : Width} {a d : RegIdx}
    (h : TransferInRange s w (s.indirectEa m w d)) :
    exec (.st m w a d) s = .next (((s.setReg d (s.indirectEa m w d)).setBytes w (s.indirectEa m w d)
      (if a = d then s.indirectEa m w d else s.reg a)).postAdjust m w d (s.indirectEa m w d)) := by
  rw [exec_st, State.storeThen_of_inRange (s := s.setReg d (s.indirectEa m w d)) h]

/-- Settles O34: the store writes memory alone, between the two adjustments of one register. -/
theorem stStoresAndAdjusts : Obligations.StStoresAndAdjusts := by
  unfold Obligations.StStoresAndAdjusts
  intro m w a d s ea v
  refine ⟨encodedAs_of_row 34 rfl rfl (toNat_encodeLdSt _ m w a d) (Laws.EncodesInItsRow.st m w a d),
    s.indirectEa_eq m w d, fun hin => ⟨_, exec_st_of_inRange hin, ?_⟩⟩
  have hcontrol : SameControl s ((s.setReg d ea).setBytes w ea v) := by simp [SameControl]
  obtain ⟨⟨-, hpsw, -, hpost⟩, -⟩ := ((s.setReg d ea).setBytes w ea v).postAdjust_frame m w d ea
  simp only [State.postAdjust_byteAt]
  refine ⟨State.setBytes_byteAt_low _ w ea v, ?_, fun k hk => State.setBytes_byteAt_of_notMem v hk, ?_, fun r hr => ?_,
    hpsw.trans (by simp), hcontrol.trans hpost⟩
  · rintro rfl
    exact State.setBytes_word_byteAt_high _ ea v
  · exact State.postAdjust_reg_of_reg_eq (by rw [State.setBytes_reg, State.reg_setReg_self])
  · have hne : r ≠ d := by simpa using hr
    rw [State.postAdjust_reg_of_ne _ _ _ _ hne, State.setBytes_reg, State.reg_setReg_of_ne _ _ hne]

/-- Settles O35: the store aborts in the state that the pre-adjust left, its first byte written where in range. -/
theorem stAbortsOutOfRange : Obligations.StAbortsOutOfRange := by
  unfold Obligations.StAbortsOutOfRange
  intro m w a d s ea v hout
  obtain ⟨hreport, hbytes, hregs, hpsw, hrun, hcfg⟩ :=
    State.storeThen_aborts (s := s.setReg d ea) hout v fun t => t.postAdjust m w d ea
  exact ⟨_, exec_st m w a d s, hreport, hbytes, fun r => (hregs r).trans (s.reg_setReg d r ea), hpsw, hrun, hcfg⟩

/-! ## LDR and STR -/

theorem State.indexedEa_eq (s : State) (v : BitVec 7) (w : Width) (base : RegIdx) :
    s.indexedEa v w base = BitVec.ofInt 16 ((s.reg base).toNat + v.toInt * (widthStep w).toNat) := by
  have hsext : sext v = BitVec.ofInt 16 v.toInt := rfl
  rw [State.indexedEa, hsext, BitVec.ofInt_add, BitVec.ofInt_mul]
  simp

/-- Settles O36: the load at the indexed address writes the destination, or aborts with no register written. -/
theorem ldrLoadsIndexed : Obligations.LdrLoadsIndexed := by
  unfold Obligations.LdrLoadsIndexed
  intro v w a d s ea
  refine ⟨encodedAs_of_row 39 rfl rfl (toNat_encodeIndexed _ v w a d) (Laws.EncodesInItsRow.ldr v w a d),
    s.indexedEa_eq v w a, fun hin => ?_, fun hout => ?_⟩
  · have hexec : exec (.ldr v w a d) s = .next (s.setReg d (widthValue w (s.reg d) (s.valueAt w ea))) :=
      congrArg _ (State.loadThen_of_inRange hin d id)
    refine ⟨_, hexec, .of_setReg s d _, by simp, ?_⟩
    rw [State.reg_setReg_self]
    cases w with
    | word => exact hiByte_wordOfBytes _ _
    | byte => exact hiByte_mergeLow _ _
  · exact congrArg _ (State.loadThen_of_not_inRange hout d id)

/-- Settles O37: the store at the indexed address writes memory alone, and aborts after its first byte at most. -/
theorem strStoresIndexed : Obligations.StrStoresIndexed := by
  unfold Obligations.StrStoresIndexed
  intro v w a d s ea
  refine ⟨encodedAs_of_row 40 rfl rfl (toNat_encodeIndexed _ v w a d) (Laws.EncodesInItsRow.str v w a d),
    s.indexedEa_eq v w d, fun hin => ?_, fun hout => ?_⟩
  · have hexec : exec (.str v w a d) s = .next (s.setBytes w ea (s.reg a)) :=
      congrArg _ (State.storeThen_of_inRange hin (s.reg a) id)
    refine ⟨_, hexec, s.setBytes_byteAt_low w ea _, ?_, fun k hk => State.setBytes_byteAt_of_notMem _ hk,
      fun r _ => s.setBytes_reg w ea _ r, s.setBytes_psw w ea _, by simp [SameControl]⟩
    rintro rfl
    exact s.setBytes_word_byteAt_high ea _
  · obtain ⟨hreport, hbytes, hregs, hframe⟩ := State.storeThen_aborts hout (s.reg a) id
    exact ⟨_, rfl, hreport, hbytes, fun r _ => hregs r, hframe⟩

/-! ## The memory in which no access fails (R196, 60_exceptions.md R322) -/

/-- With 65536 bytes and the second byte's address taken modulo 2^16, every transfer is in range. -/
theorem transferInRange_of_reference {s : State} (hsize : s.cfg.memSize = 65536) (hmode : s.cfg.highByteAddr = .wrap16)
    (w : Width) (ea : Word) : TransferInRange s w ea := by
  have hlt : ∀ x : Word, x.toNat < s.cfg.memSize := fun x => hsize ▸ x.isLt
  have hnext : s.next ea < s.cfg.memSize := by
    rw [State.next, hmode, nextAddr]
    exact hlt _
  cases w <;> simp [TransferInRange, storedBytes, hnext, hlt]

theorem State.loadThen_sameControl {s : State} {w : Width} {ea : Word} (h : TransferInRange s w ea) (dst : RegIdx)
    {post : State → State} (hpost : ∀ u, SameControl u (post u)) : SameControl s (s.loadThen w ea dst post) := by
  rw [State.loadThen_of_inRange h]
  exact (s.setReg_sameControl dst _).trans (hpost _)

theorem State.storeThen_sameControl {s : State} {w : Width} {ea : Word} (h : TransferInRange s w ea) (v : Word)
    {post : State → State} (hpost : ∀ u, SameControl u (post u)) : SameControl s (s.storeThen w ea v post) := by
  rw [State.storeThen_of_inRange h]
  exact SameControl.trans (by simp [SameControl]) (hpost _)

/-- Every instruction completes there: it keeps the run state and the report, or it is the unclassified case of 47_sys.md
R310. -/
theorem exec_completes_of_reference {s : State} (hsize : s.cfg.memSize = 65536) (hmode : s.cfg.highByteAddr = .wrap16)
    (i : Instr) : ∃ t, exec i s = .next t ∧ (SameControl s t ∨ t = s.unclassified (encode i)) := by
  cases i with
  | bl off =>
    exact ⟨_, rfl, .inl ((s.setReg_sameControl lrIdx s.pc).trans (State.branchIf_sameControl _ _ off))⟩
  | beq off | bne off | bc off | bnc off | bn off | bge off | blt off | bra off =>
    exact ⟨_, rfl, .inl (s.branchIf_sameControl _ off)⟩
  | add w src dst | addc w src dst | sub w src dst | subc w src dst | dadd w src dst | cmp w src dst | xor w src dst
  | and w src dst | or w src dst | bit w src dst | bic w src dst | bis w src dst =>
    exact ⟨_, rfl, .inl (s.runAl_sameControl _ w src dst)⟩
  | mov w src dst => exact ⟨_, rfl, .inl (s.writeReg_sameControl dst _ _ _)⟩
  | swap src dst => exact ⟨_, rfl, .inl ((s.setReg_sameControl dst _).trans (State.setReg_sameControl _ src _))⟩
  | sra w dst | rrc w dst | comp w dst => exact ⟨_, rfl, .inl (s.runSo_sameControl _ w dst)⟩
  | swpb dst | sxt dst => exact ⟨_, rfl, .inl (s.runSo_sameControl _ .word dst)⟩
  | setpri low | svc low | setcc low | clrcc low | cex low => exact ⟨_, rfl, .inr rfl⟩
  | movl imm dst | movh imm dst => exact ⟨_, rfl, .inl (s.writeReg_sameControl dst _ _ _)⟩
  | movlz imm dst | movls imm dst => exact ⟨_, rfl, .inl (s.setReg_sameControl dst _)⟩
  | ld mode w src dst =>
    have hin : TransferInRange (s.setReg src (s.indirectEa mode w src)) w (s.indirectEa mode w src) :=
      transferInRange_of_reference hsize hmode w _
    exact ⟨_, exec_ld mode w src dst s, .inl ((s.setReg_sameControl src _).trans
      (State.loadThen_sameControl hin dst fun u => u.postAdjust_sameControl mode w src _))⟩
  | st mode w src dst =>
    have hin : TransferInRange (s.setReg dst (s.indirectEa mode w dst)) w (s.indirectEa mode w dst) :=
      transferInRange_of_reference hsize hmode w _
    exact ⟨_, exec_st mode w src dst s, .inl ((s.setReg_sameControl dst _).trans
      (State.storeThen_sameControl hin _ fun u => u.postAdjust_sameControl mode w dst _))⟩
  | ldr disp w src dst =>
    exact ⟨_, rfl, .inl (State.loadThen_sameControl (transferInRange_of_reference hsize hmode w _) dst SameControl.refl)⟩
  | str disp w src dst =>
    exact ⟨_, rfl, .inl (State.storeThen_sameControl (transferInRange_of_reference hsize hmode w _) _ SameControl.refl)⟩

/-- Settles O43: the fetch is in range and every instruction completes, so the only halt left is the sentinel's. -/
theorem noAccessFailsInTheReferenceMemory : Obligations.NoAccessFailsInTheReferenceMemory := by
  unfold Obligations.NoAccessFailsInTheReferenceMemory
  intro s hsize hmode hrun
  have hfetch : s.fetch = .ok (s.valueAt .word s.pc) :=
    State.memRead_of_inRange (transferInRange_of_reference hsize hmode .word s.pc)
  obtain ⟨a, hf, -⟩ | ⟨-, hstep⟩ | ⟨w, -, -, -, -, hstep⟩ | ⟨-, i, -, -, -, hstep⟩ := step_cases hrun
  · cases hfetch.symm.trans hf
  · exact ⟨_, _, hfetch, hstep, by simp, by simp⟩
  · exact ⟨_, _, hfetch, hstep, by simp [State.unclassified], by simp [State.unclassified, hrun]⟩
  · obtain ⟨t, hexec, ⟨htrun, htreport, -⟩ | rfl⟩ := exec_completes_of_reference (s := s.advance) hsize hmode i
    · exact ⟨t, _, hfetch, hstep.trans hexec, by simp [htreport], by simp [htrun, hrun]⟩
    · exact ⟨_, _, hfetch, hstep.trans hexec, by simp [State.unclassified], by simp [State.unclassified, hrun]⟩

end Sys2Proof.Machine

/-! SUPPORT. The AL family (43_al.md): what an instruction leaves for the result its operation computes, the carry chain of
DADD, and decimal addition on BCD digits. -/

namespace Sys2Proof.Machine

/-! ## Write-back and flags (R220) -/

theorem WrittenBack.of_reg_eq {t : State} {old : Word} {w : Width} {dst : RegIdx} {r : Nat}
    (h : t.reg dst = widthValue w old (BitVec.ofNat 16 r)) : WrittenBack t old w dst r := by
  cases w with
  | word =>
    rw [WrittenBack, h, widthValue]
    exact BitVec.toNat_ofNat r 16
  | byte =>
    refine ⟨?_, by rw [h, widthValue, hiByte_mergeLow]⟩
    rw [h, loByte_widthValue, toNat_loByte, BitVec.toNat_ofNat]
    exact Nat.mod_mod_of_dvd r (by decide)

theorem State.runAl_alWrites {s : State} {op : Width → Word → Word → Bool → AluOut} {w : Width} {src : AlSrc}
    {dst : RegIdx} {r : Nat} {isSub : Bool}
    (h : op w (s.reg dst) (s.alSource w src) (pswC s.psw) = ⟨r, true, isSub, none⟩) :
    AlWrites s (s.runAl op w src dst) w src dst r isSub := by
  obtain ⟨hreg, hpsw, -, hframe⟩ := s.runAl_spec op w src dst
  rw [h] at hreg hpsw hframe
  exact ⟨.of_reg_eq hreg, hpsw, hframe⟩

theorem State.runAl_alTests {s : State} {op : Width → Word → Word → Bool → AluOut} {w : Width} {src : AlSrc}
    {dst : RegIdx} {r : Nat} {isSub : Bool}
    (h : op w (s.reg dst) (s.alSource w src) (pswC s.psw) = ⟨r, false, isSub, none⟩) :
    AlTests s (s.runAl op w src dst) w src dst r isSub := by
  obtain ⟨-, hpsw, -, hframe⟩ := s.runAl_spec op w src dst
  rw [h] at hpsw hframe
  exact ⟨hpsw, hframe⟩

/-! ## Binary addition and subtraction (R222 to R225, R227) -/

/-- Settles O15: the ALU's results are the two sums. -/
theorem addAndAddcWriteTheSum : Obligations.AddAndAddcWriteTheSum := by
  unfold Obligations.AddAndAddcWriteTheSum
  intro w src d s
  exact ⟨encodedAs_of_row 9 rfl rfl (toNat_encodeAl _ w src d) (Laws.EncodesInItsRow.add w src d),
    encodedAs_of_row 10 rfl rfl (toNat_encodeAl _ w src d) (Laws.EncodesInItsRow.addc w src d),
    ⟨_, rfl, State.runAl_alWrites rfl⟩, ⟨_, rfl, State.runAl_alWrites rfl⟩⟩

theorem twos_eq_neg (s : Word) : twos s = -s := (BitVec.neg_eq_not_add s).symm

theorem toNat_twos (s : Word) : (twos s).toNat = (65536 - s.toNat) % 65536 := by
  rw [twos_eq_neg]
  exact BitVec.toNat_neg s

/-- Settles O16: the ALU adds `twos` of the source, which is its negation modulo 2^16. -/
theorem subSubcAndCmpSubtract : Obligations.SubSubcAndCmpSubtract := by
  unfold Obligations.SubSubcAndCmpSubtract
  intro w src d s
  simp only [← toNat_twos]
  exact ⟨encodedAs_of_row 11 rfl rfl (toNat_encodeAl _ w src d) (Laws.EncodesInItsRow.sub w src d),
    encodedAs_of_row 12 rfl rfl (toNat_encodeAl _ w src d) (Laws.EncodesInItsRow.subc w src d),
    encodedAs_of_row 14 rfl rfl (toNat_encodeAl _ w src d) (Laws.EncodesInItsRow.cmp w src d),
    ⟨_, rfl, State.runAl_alWrites rfl⟩, ⟨_, rfl, State.runAl_alWrites rfl⟩, ⟨_, rfl, State.runAl_alTests rfl⟩⟩

/-! ## Packed-BCD digits -/

theorem bcdDigit_zero (v : Nat) : bcdDigit v 0 = v % 16 := by rw [bcdDigit, pow_zero, Nat.div_one]

theorem bcdDigit_succ (v i : Nat) : bcdDigit v (i + 1) = bcdDigit (v / 16) i := by
  rw [bcdDigit, bcdDigit, Nat.div_div_eq_div_mul, pow_succ']

theorem bcdDigit_lt (v i : Nat) : bcdDigit v i < 16 := Nat.mod_lt _ (by decide)

theorem bcdDigit_mod {k i : Nat} (h : i < k) (v : Nat) : bcdDigit (v % 16 ^ k) i = bcdDigit v i := by
  obtain ⟨j, rfl⟩ := Nat.exists_eq_add_of_lt h
  rw [bcdDigit, add_assoc, pow_add, Nat.mod_mul_right_div_self, pow_succ', Nat.mod_mul_right_mod, bcdDigit]

theorem bcdDigit_congr {u v k i : Nat} (h : u % 16 ^ k = v % 16 ^ k) (hi : i < k) : bcdDigit u i = bcdDigit v i := by
  rw [← bcdDigit_mod hi u, h, bcdDigit_mod hi]

theorem bcdValue_congr {u v k : Nat} (h : ∀ i < k, bcdDigit u i = bcdDigit v i) : bcdValue u k = bcdValue v k := by
  induction k with
  | zero => rfl
  | succ k ih => rw [bcdValue, bcdValue, ih fun i hi => h i (Nat.lt_succ_of_lt hi), h k (Nat.lt_succ_self k)]

/-! ## The carry chain of DADD (R226) -/

/-- The digit that stands for a digit sum. -/
def bcdCorrect (sum : Nat) : Nat := if sum > 9 then (sum + 6) % 16 else sum

theorem bcdCorrect_lt (sum : Nat) : bcdCorrect sum < 16 := by
  unfold bcdCorrect
  split <;> omega

/-- The sum of the digits number `i` of `x` and `y` and a carry. -/
def bcdSum (x y i : Nat) (c : Bool) : Nat := bcdDigit x i + bcdDigit y i + bitNumber c

theorem bcdSum_succ (x y i : Nat) (c : Bool) : bcdSum x y (i + 1) c = bcdSum (x / 16) (y / 16) i c := by
  rw [bcdSum, bcdDigit_succ, bcdDigit_succ, bcdSum]

/-- `c` is a carry chain for `x` and `y` over `k` digits, and the digits of `r` are the corrected sums. -/
def BcdChain (x y r : Nat) (c : Nat → Bool) (k : Nat) : Prop :=
  ∀ i < k, c (i + 1) = decide (bcdSum x y i (c i) > 9) ∧ bcdDigit r i = bcdCorrect (bcdSum x y i (c i))

/-- The model peels off the least significant digit. -/
theorem bcdAdd_succ (k x y : Nat) (c : Bool) :
    bcdAdd (k + 1) x y c =
      (bcdCorrect (bcdSum x y 0 c) + 16 * (bcdAdd k (x / 16) (y / 16) (decide (bcdSum x y 0 c > 9))).1,
        (bcdAdd k (x / 16) (y / 16) (decide (bcdSum x y 0 c > 9))).2) := by
  simp only [bcdSum, bcdDigit_zero]
  rfl

theorem bcdAdd_lt (k x y : Nat) (c : Bool) : (bcdAdd k x y c).1 < 16 ^ k := by
  induction k generalizing x y c with
  | zero => exact Nat.one_pos
  | succ k ih =>
    have hrest := ih (x / 16) (y / 16) (decide (bcdSum x y 0 c > 9))
    have hdigit := bcdCorrect_lt (bcdSum x y 0 c)
    rw [bcdAdd_succ, pow_succ]
    omega

/-- The carry out of `k + 1` digits comes from digit `k` and the carry out of the `k` digits below it. -/
theorem bcdAdd_carry_succ (k x y : Nat) (c : Bool) :
    (bcdAdd (k + 1) x y c).2 = decide (bcdSum x y k (bcdAdd k x y c).2 > 9) := by
  induction k generalizing x y c with
  | zero => rw [bcdAdd_succ]; rfl
  | succ k ih =>
    rw [bcdAdd_succ, ih, bcdAdd_succ k]
    simp only [bcdSum_succ]

theorem bcdDigit_bcdAdd {k i : Nat} (hi : i < k) (x y : Nat) (c : Bool) :
    bcdDigit (bcdAdd k x y c).1 i = bcdCorrect (bcdSum x y i (bcdAdd i x y c).2) := by
  induction k generalizing i x y c with
  | zero => exact absurd hi (Nat.not_lt_zero i)
  | succ k ih =>
    have hdigit := bcdCorrect_lt (bcdSum x y 0 c)
    rw [bcdAdd_succ]
    cases i with
    | zero =>
      rw [bcdDigit_zero, Nat.add_mul_mod_self_left, Nat.mod_eq_of_lt hdigit]
      rfl
    | succ i =>
      rw [bcdDigit_succ, Nat.add_mul_div_left _ _ (by decide), Nat.div_eq_of_lt hdigit, Nat.zero_add,
        ih (Nat.lt_of_succ_lt_succ hi), bcdAdd_succ i]
      simp only [bcdSum_succ]

/-- The carry into digit `i` is the carry out of the addition of the `i` digits below it. -/
theorem bcdAdd_chain (k x y : Nat) (c : Bool) : BcdChain x y (bcdAdd k x y c).1 (fun i => (bcdAdd i x y c).2) k :=
  fun i hi => ⟨bcdAdd_carry_succ i x y c, bcdDigit_bcdAdd hi x y c⟩

/-- Settles O17: the carries are those of the additions of fewer digits. -/
theorem daddAddsDigitByDigit : Obligations.DaddAddsDigitByDigit := by
  unfold Obligations.DaddAddsDigitByDigit
  intro w src d s
  obtain ⟨hreg, hpsw, -, hframe⟩ := s.runAl_spec aluDadd w src d
  exact ⟨encodedAs_of_row 13 rfl rfl (toNat_encodeAl _ w src d) (Laws.EncodesInItsRow.dadd w src d),
    _, fun i => (bcdAdd i (s.reg d).toNat (s.alSource w src).toNat (pswC s.psw)).2, _, rfl, rfl,
    bcdAdd_chain (bcdDigits w) _ _ _, bcdAdd_lt _ _ _ _, .of_reg_eq hreg, hpsw, hframe⟩

/-! ## Decimal addition -/

/-- One decimal digit: the corrected sum is the sum modulo 10, and the carry is worth 10. -/
theorem bcdCorrect_of_decimal {x y i : Nat} {c : Bool} (hx : bcdDigit x i ≤ 9) (hy : bcdDigit y i ≤ 9) :
    bcdCorrect (bcdSum x y i c) ≤ 9 ∧
      bcdCorrect (bcdSum x y i c) + 10 * bitNumber (decide (bcdSum x y i c > 9)) = bcdSum x y i c := by
  have hsum : bcdSum x y i c ≤ 19 := by
    unfold bcdSum
    cases c <;> simp [bitNumber] <;> omega
  unfold bcdCorrect
  by_cases h : bcdSum x y i c > 9 <;> simp [h, bitNumber] <;> omega

/-- On decimal digits a carry chain is the addition of the numbers they spell. -/
theorem BcdChain.value_eq {x y r k : Nat} {c : Nat → Bool} (h : BcdChain x y r c k)
    (hdec : ∀ i < k, bcdDigit x i ≤ 9 ∧ bcdDigit y i ≤ 9) :
    bcdValue r k + bitNumber (c k) * 10 ^ k = bcdValue x k + bcdValue y k + bitNumber (c 0) := by
  induction k with
  | zero => simp [bcdValue]
  | succ k ih =>
    have hbelow := ih (fun i hi => h i (by omega)) (fun i hi => hdec i (by omega))
    obtain ⟨hcarry, hdigit⟩ := h k (by omega)
    obtain ⟨hx, hy⟩ := hdec k (by omega)
    obtain ⟨-, hsum⟩ := bcdCorrect_of_decimal (c := c k) hx hy
    rw [← hcarry, ← hdigit] at hsum
    calc bcdValue r (k + 1) + bitNumber (c (k + 1)) * 10 ^ (k + 1)
        = bcdValue r k + (bcdDigit r k + 10 * bitNumber (c (k + 1))) * 10 ^ k := by rw [bcdValue]; ring
      _ = bcdValue r k + bitNumber (c k) * 10 ^ k + (bcdDigit x k + bcdDigit y k) * 10 ^ k := by
        rw [hsum, bcdSum]; ring
      _ = bcdValue x (k + 1) + bcdValue y (k + 1) + bitNumber (c 0) := by rw [hbelow, bcdValue, bcdValue]; ring

theorem BcdChain.digit_le {x y r k : Nat} {c : Nat → Bool} (h : BcdChain x y r c k)
    (hdec : ∀ i < k, bcdDigit x i ≤ 9 ∧ bcdDigit y i ≤ 9) {i : Nat} (hi : i < k) : bcdDigit r i ≤ 9 := by
  obtain ⟨-, hdigit⟩ := h i hi
  obtain ⟨hx, hy⟩ := hdec i hi
  obtain ⟨hle, -⟩ := bcdCorrect_of_decimal (c := c i) hx hy
  exact hdigit ▸ hle

/-- The digits of the selected width are the low ones of the register, in either mode. -/
theorem WrittenBack.mod_eq {t : State} {old : Word} {w : Width} {dst : RegIdx} {r : Nat} (h : WrittenBack t old w dst r) :
    (t.reg dst).toNat % 16 ^ bcdDigits w = r % 16 ^ bcdDigits w := by
  cases w with
  | word => exact (congrArg (· % 65536) h).trans (Nat.mod_mod r 65536)
  | byte =>
    obtain ⟨hlow, -⟩ := h
    exact (toNat_loByte _).symm.trans hlow

/-- Settles O18: the carry chain of O17 is decimal addition, and the register's digits are the result's. -/
theorem daddIsDecimalAdditionOnBcdOperands : Obligations.DaddIsDecimalAdditionOnBcdOperands := by
  unfold Obligations.DaddIsDecimalAdditionOnBcdOperands
  intro w src d s t hdec hexec
  obtain ⟨-, u, c, r, hu, hstart, hchain, -, hback, hpsw, -⟩ := daddAddsDigitByDigit w src d s
  cases hu.symm.trans hexec
  have hchain : BcdChain (s.reg d).toNat (s.alSource w src).toNat r c (bcdDigits w) := hchain
  have hcarry : pswC t.psw = c (bcdDigits w) := by
    obtain ⟨-, -, hC, -⟩ := updateFlags_spec s.psw r (s.alSource w src).toNat (s.reg d).toNat w false
      (some (c (bcdDigits w)))
    rw [hpsw, hC, Option.getD_some]
  have hdigits : ∀ i < bcdDigits w, bcdDigit (t.reg d).toNat i = bcdDigit r i := fun i hi =>
    bcdDigit_congr hback.mod_eq hi
  refine ⟨fun i hi => ?_, ?_⟩
  · rw [hdigits i hi]
    exact hchain.digit_le hdec hi
  · rw [bcdValue_congr hdigits, hcarry, hchain.value_eq hdec, hstart]

/-! ## Bitwise operations (R228 to R233) -/

/-- A result with every bit of the destination's is not below it, so the addition formula for C gives 0 (R43). -/
theorem pswC_updateFlags_or (p : Word) (x y src : Nat) (w : Width) :
    pswC (updateFlags p (x ||| y) src x w false none) = false := by
  obtain ⟨-, -, hC, -⟩ := updateFlags_spec p (x ||| y) src x w false none
  have hle : maskTo w x ≤ maskTo w (x ||| y) := by
    rw [maskTo, maskTo, Nat.or_mod_two_pow]
    exact Nat.left_le_or
  rw [hC]
  exact decide_eq_false (Nat.not_lt.2 hle)

theorem AlWrites.pswC_of_or {s t : State} {w : Width} {src : AlSrc} {dst : RegIdx} {y : Nat}
    (h : AlWrites s t w src dst ((s.reg dst).toNat ||| y) false) : pswC t.psw = false := by
  obtain ⟨-, hpsw, -⟩ := h
  rw [hpsw, pswC_updateFlags_or]

/-- Settles O19: the ALU's results are the bitwise combinations of the words' numbers. -/
theorem xorAndOrCombineBitwise : Obligations.XorAndOrCombineBitwise := by
  unfold Obligations.XorAndOrCombineBitwise
  intro w src d s
  have hor : AlWrites s (s.runAl aluOr w src d) w src d ((s.reg d).toNat ||| (s.alSource w src).toNat) false :=
    State.runAl_alWrites (by rw [aluOr, BitVec.toNat_or])
  exact ⟨encodedAs_of_row 15 rfl rfl (toNat_encodeAl _ w src d) (Laws.EncodesInItsRow.xor w src d),
    encodedAs_of_row 16 rfl rfl (toNat_encodeAl _ w src d) (Laws.EncodesInItsRow.and w src d),
    encodedAs_of_row 17 rfl rfl (toNat_encodeAl _ w src d) (Laws.EncodesInItsRow.or w src d),
    ⟨_, rfl, State.runAl_alWrites (by rw [aluXor, BitVec.toNat_xor])⟩,
    ⟨_, rfl, State.runAl_alWrites (by rw [aluAnd, BitVec.toNat_and])⟩, ⟨_, rfl, hor, hor.pswC_of_or⟩⟩

theorem toNat_bitmask (s : Word) : (bitmask s).toNat = if s.toNat < 16 then 2 ^ s.toNat else 0 := by
  unfold bitmask
  split
  next h =>
    have hlt : 2 ^ s.toNat < 2 ^ 16 := Nat.pow_lt_pow_right (by decide) h
    rw [BitVec.toNat_shiftLeft, Nat.shiftLeft_eq, BitVec.toNat_ofNat, Nat.one_mod, Nat.one_mul, Nat.mod_eq_of_lt hlt]
  next => rfl

/-- Settles O20: the mask is the one bit, its complement all the others. -/
theorem bitBicAndBisActOnOneBit : Obligations.BitBicAndBisActOnOneBit := by
  unfold Obligations.BitBicAndBisActOnOneBit
  intro w src d s
  simp only [← toNat_bitmask]
  have hbis : AlWrites s (s.runAl aluBis w src d) w src d
      ((s.reg d).toNat ||| (bitmask (s.alSource w src)).toNat) false :=
    State.runAl_alWrites (by rw [aluBis, BitVec.toNat_or])
  exact ⟨encodedAs_of_row 18 rfl rfl (toNat_encodeAl _ w src d) (Laws.EncodesInItsRow.bit w src d),
    encodedAs_of_row 19 rfl rfl (toNat_encodeAl _ w src d) (Laws.EncodesInItsRow.bic w src d),
    encodedAs_of_row 20 rfl rfl (toNat_encodeAl _ w src d) (Laws.EncodesInItsRow.bis w src d),
    ⟨_, rfl, State.runAl_alTests (by rw [aluBit, BitVec.toNat_and])⟩,
    ⟨_, rfl, State.runAl_alWrites (by rw [aluBic, BitVec.toNat_and, BitVec.toNat_not])⟩,
    ⟨_, rfl, hbis, hbis.pswC_of_or⟩⟩

end Sys2Proof.Machine

/-! SUPPORT. The REX family (44_rex.md): a register written to another, and two such writes that exchange them. -/

namespace Sys2Proof.Machine

/-! ## MOV (R260) -/

theorem exec_mov (w : Width) (a d : RegIdx) (s : State) :
    exec (.mov w a d) s = .next (s.setReg d (widthValue w (s.reg d) (s.reg a))) := by
  rw [← State.writeWidth_eq]
  rfl

/-- Settles O21: one register write of the source's number in the selected width. -/
theorem movCopiesARegister : Obligations.MovCopiesARegister := by
  unfold Obligations.MovCopiesARegister
  intro w a d s
  have hback : WrittenBack (s.setReg d (widthValue w (s.reg d) (s.reg a))) (s.reg d) w d (s.reg a).toNat :=
    .of_reg_eq (by rw [State.reg_setReg_self, BitVec.ofNat_toNat, BitVec.setWidth_eq])
  exact ⟨encodedAs_of_row 21 rfl rfl (toNat_encodeMov w a d) (Laws.EncodesInItsRow.mov w a d),
    _, exec_mov w a d s, hback, .of_setReg s d _⟩

/-! ## SWAP (R261) -/

/-- Two registers with each other's captured words. The second write does not undo the first: on the same register both
write the same word. -/
theorem State.reg_exchange (s : State) (a d : RegIdx) :
    ((s.setReg d (s.reg a)).setReg a (s.reg d)).reg d = s.reg a := by
  by_cases h : d = a
  · subst h
    exact State.reg_setReg_self _ d _
  · rw [State.reg_setReg_of_ne _ _ h, State.reg_setReg_self]

/-- Settles O22: the destination is written first, the source last, each with the other's prior word. -/
theorem swapExchangesTwoRegisters : Obligations.SwapExchangesTwoRegisters := by
  unfold Obligations.SwapExchangesTwoRegisters
  intro a d s
  have hframe : OnlyRegs s ((s.setReg d (s.reg a)).setReg a (s.reg d)) [a, d] :=
    ((OnlyRegs.of_setReg s d _).mono (by simp)).trans ((OnlyRegs.of_setReg _ a _).mono (by simp))
  exact ⟨encodedAs_of_row 22 rfl rfl (toNat_encodeSwap a d) (Laws.EncodesInItsRow.swap a d),
    _, rfl, State.reg_setReg_self _ a _, s.reg_exchange a d, hframe⟩

end Sys2Proof.Machine

/-! SUPPORT. The SO family (45_so.md): an operation on the operand as a bit vector of the operation width, what the family's
course leaves for its result, and the two instructions that act on the full word. -/

namespace Sys2Proof.Machine

/-! ## The operand in the operation width (R270) -/

/-- `x` of R270: the bits of the register that the operation width covers. -/
def soOperand (w : Width) (v : Word) : BitVec (widthBits w) :=
  match w with
  | .word => v
  | .byte => loByte v

theorem maskTo_toNat (w : Width) (v : Word) : maskTo w v.toNat = (soOperand w v).toNat := by
  cases w with
  | word => exact Nat.mod_eq_of_lt v.isLt
  | byte => exact (toNat_loByte v).symm

theorem msbOf_toNat {w : Width} (x : BitVec (widthBits w)) : msbOf w x.toNat = x.msb :=
  (BitVec.msb_eq_getLsbD_last x).symm

theorem testBit_zero_soOperand (w : Width) (v : Word) : (soOperand w v).toNat.testBit 0 = v.getLsbD 0 := by
  rw [← maskTo_toNat, maskTo, Nat.testBit_mod_two_pow]
  cases w <;> rfl

/-! ## What every SO instruction leaves (R270) -/

theorem State.runSo_soWrites {s : State} {op : Width → Nat → Bool → Nat × Option Bool} {w : Width} {dst : RegIdx}
    {r : Nat} {c : Option Bool} (h : op w (soOperand w (s.reg dst)).toNat (pswC s.psw) = (r, c)) :
    SoWrites s (s.runSo op w dst) w dst r c := by
  obtain ⟨hreg, hpsw, -, hframe⟩ := s.runSo_spec op w dst
  rw [maskTo_toNat, h] at hreg hpsw
  exact ⟨.of_reg_eq hreg, hpsw, hframe⟩

/-- With the operand as both src and dst of update_flags, V says whether the top bit changed. -/
theorem SoWrites.pswV_eq {s t : State} {w : Width} {dst : RegIdx} {x : BitVec (widthBits w)} {c : Option Bool}
    (h : SoWrites s t w dst x.toNat c) : pswV t.psw = (x.msb ^^ (soOperand w (s.reg dst)).msb) := by
  obtain ⟨-, hpsw, -⟩ := h
  obtain ⟨-, -, -, hV, -⟩ := updateFlags_spec s.psw x.toNat (s.reg dst).toNat (s.reg dst).toNat w false c
  have hx : maskTo w x.toNat = x.toNat := Nat.mod_eq_of_lt x.isLt
  rw [hpsw, hV, computeFlags, hx, maskTo_toNat, msbOf_toNat, msbOf_toNat, BEq.rfl, Bool.true_and, Bool.bne_eq_xor]

theorem SoWrites.pswC_of_some {s t : State} {w : Width} {dst : RegIdx} {r : Nat} {b : Bool}
    (h : SoWrites s t w dst r (some b)) : pswC t.psw = b := by
  obtain ⟨-, hpsw, -⟩ := h
  obtain ⟨-, -, hC, -⟩ := updateFlags_spec s.psw r (s.reg dst).toNat (s.reg dst).toNat w false (some b)
  rw [hpsw, hC, Option.getD_some]

theorem toNat_encodeSo_widthBit (w : Width) (op : BitVec 3) (d : RegIdx) :
    (encodeSo (widthBit w) op d).toNat = 0x4D00 + op.toNat * 8 + wbNumber w + d.val := by
  have hn := toNat_encodeSo (widthBit w) op d
  have hw := toNat_widthBit w
  omega

/-! ## SRA, RRC and COMP (R271 to R273) -/

/-- The operand's own top bit above its halved bits is half of it as a signed number. -/
theorem soSra_toNat {w : Width} (x : BitVec (widthBits w)) (c : Bool) :
    soSra w x.toNat c = ((x.sshiftRight 1).toNat, none) := by
  have hx := x.isLt
  have hpow : 2 ^ widthBits w = 2 * 2 ^ (widthBits w - 1) := by cases w <;> rfl
  rw [soSra, msbOf_toNat, BitVec.toNat_sshiftRight, Nat.shiftRight_one, Nat.shiftRight_one, topBit]
  congr 1
  cases x.msb with
  | false => rfl
  | true =>
    simp only [if_true]
    omega

/-- Settles O23: the result is the signed half, which keeps the operand's sign, so V is clear. -/
theorem sraShiftsRightKeepingTheSign : Obligations.SraShiftsRightKeepingTheSign := by
  unfold Obligations.SraShiftsRightKeepingTheSign
  intro w d s
  have hwrites := State.runSo_soWrites (soSra_toNat (soOperand w (s.reg d)) (pswC s.psw))
  refine ⟨encodedAs_of_row 23 rfl rfl (toNat_encodeSo_widthBit w _ d) (Laws.EncodesInItsRow.sra w d), _, rfl, ?sign,
    ?writes⟩
  case sign => rw [hwrites.pswV_eq, BitVec.msb_sshiftRight, Bool.xor_self]
  case writes => cases w <;> exact hwrites

theorem soRrc_toNat (w : Width) (v : Word) (c : Bool) :
    soRrc w (soOperand w v).toNat c =
      ((soOperand w v).toNat / 2 + bitNumber c * 2 ^ (widthBits w - 1), some (v.getLsbD 0)) := by
  rw [soRrc, testBit_zero_soOperand, topBit, bitNumber, ite_mul, Nat.one_mul, Nat.zero_mul]

/-- Settles O24: the carry in stands above the halved bits, and the bit they lost is the override of C. -/
theorem rrcRotatesThroughCarry : Obligations.RrcRotatesThroughCarry := by
  unfold Obligations.RrcRotatesThroughCarry
  intro w d s
  have hwrites := State.runSo_soWrites (soRrc_toNat w (s.reg d) (pswC s.psw))
  refine ⟨encodedAs_of_row 24 rfl rfl (toNat_encodeSo_widthBit w _ d) (Laws.EncodesInItsRow.rrc w d), _, rfl,
    hwrites.pswC_of_some, ?writes⟩
  cases w with
  | word => exact hwrites
  | byte =>
    rw [← maskTo_toNat] at hwrites
    exact hwrites

theorem soComp_toNat {w : Width} (x : BitVec (widthBits w)) (c : Bool) : soComp w x.toNat c = ((~~~x).toNat, none) := by
  rw [soComp, BitVec.toNat_not]

/-- Settles O25: the complement flips the top bit too, so V is set. -/
theorem compComplements : Obligations.CompComplements := by
  unfold Obligations.CompComplements
  intro w d s
  have hwrites := State.runSo_soWrites (soComp_toNat (soOperand w (s.reg d)) (pswC s.psw))
  have hwidth : 0 < widthBits w := by cases w <;> decide
  refine ⟨encodedAs_of_row 25 rfl rfl (toNat_encodeSo_widthBit w _ d) (Laws.EncodesInItsRow.comp w d), _, rfl, ?overflow,
    ?writes⟩
  case overflow =>
    rw [hwrites.pswV_eq, BitVec.msb_not, decide_eq_true hwidth, Bool.true_and, Bool.not_xor_self]
  case writes => cases w <;> exact hwrites

/-! ## SWPB and SXT (R274, R275) -/

theorem SoWrites.reg_eq_of_word {s t : State} {dst : RegIdx} {v : Word} {c : Option Bool}
    (h : SoWrites s t .word dst v.toNat c) : t.reg dst = v := by
  obtain ⟨hback, -⟩ := h
  exact BitVec.eq_of_toNat_eq (hback.trans (Nat.mod_eq_of_lt v.isLt))

theorem SoWrites.pswV_eq_of_word {s t : State} {dst : RegIdx} {v : Word} {c : Option Bool}
    (h : SoWrites s t .word dst v.toNat c) : pswV t.psw = (v.msb ^^ (s.reg dst).msb) :=
  SoWrites.pswV_eq (w := .word) (x := v) h

theorem soSwpb_toNat (v : Word) (c : Bool) :
    soSwpb .word v.toNat c = ((wordOfBytes (hiByte v) (loByte v)).toNat, none) := by
  rw [soSwpb, toNat_wordOfBytes, toNat_hiByte, toNat_loByte]

theorem soSxt_toNat (v : Word) (c : Bool) : soSxt .word v.toNat c = ((sext (loByte v)).toNat, none) := rfl

theorem msb_wordOfBytes (lo hi : Byte) : (wordOfBytes lo hi).msb = hi.msb := BitVec.msb_append

theorem msb_loByte (v : Word) : (loByte v).msb = v.getLsbD 7 := by
  simp [BitVec.msb_eq_getLsbD_last, loByte]

/-- The SO words with W/B = 1 and operation number 3 or more are the third range of 30_encoding.md R121. -/
theorem unmatched_of_byteMode_so {n : Nat} (hlow : 0x4D58 ≤ n) (hhigh : n ≤ 0x4D7F) : Unmatched (BitVec.ofNat 16 n) := by
  unfold Unmatched
  rw [BitVec.toNat_ofNat]
  omega

/-- Settles O26: both results are full words; SWPB brings the old bit 7 to the top, which is what V compares. -/
theorem swpbAndSxtActOnTheFullWord : Obligations.SwpbAndSxtActOnTheFullWord := by
  unfold Obligations.SwpbAndSxtActOnTheFullWord
  intro d s
  have hd := d.isLt
  have hswpb : SoWrites s (s.runSo soSwpb .word d) .word d (wordOfBytes (hiByte (s.reg d)) (loByte (s.reg d))).toNat none :=
    State.runSo_soWrites (soSwpb_toNat _ _)
  have hsxt : SoWrites s (s.runSo soSxt .word d) .word d (sext (loByte (s.reg d))).toNat none :=
    State.runSo_soWrites (soSxt_toNat _ _)
  have hV : pswV (s.runSo soSwpb .word d).psw = ((s.reg d).getLsbD 7 ^^ (s.reg d).getLsbD 15) := by
    rw [hswpb.pswV_eq_of_word, msb_wordOfBytes, msb_loByte, BitVec.msb_eq_getLsbD_last (x := s.reg d)]
  refine ⟨encodedAs_of_row 26 rfl rfl (toNat_encodeSo _ _ d) (Laws.EncodesInItsRow.swpb d),
    encodedAs_of_row 27 rfl rfl (toNat_encodeSo _ _ d) (Laws.EncodesInItsRow.sxt d),
    unmatched_of_byteMode_so (by omega) (by omega), unmatched_of_byteMode_so (by omega) (by omega),
    ⟨_, rfl, ?low, ?high, hV, ?writesSwpb⟩, _, rfl, hsxt.reg_eq_of_word, ?writesSxt⟩
  case low => rw [hswpb.reg_eq_of_word, loByte_wordOfBytes]
  case high => rw [hswpb.reg_eq_of_word, hiByte_wordOfBytes]
  case writesSwpb => rwa [hswpb.reg_eq_of_word]
  case writesSxt => rwa [hsxt.reg_eq_of_word]

end Sys2Proof.Machine

/-! SUPPORT. The TOC family (46_toc.md): a branch goes to its target or leaves the state as it is, and the link is a register
write before it. -/

namespace Sys2Proof.Machine

/-! ## The branches of format BR (R290) -/

theorem State.branchIf_true_pc (s : State) {n : Nat} (off : BitVec n) :
    (s.branchIf true off).pc = targetOf s.pc off.toInt := by
  obtain ⟨hpc, -, -⟩ := s.branchIf_spec true off
  rw [hpc, if_pos rfl, branchTarget_eq_targetOf]

theorem State.branchIf_false (s : State) {n : Nat} (off : BitVec n) : s.branchIf false off = s := rfl

/-- The Boolean that an instruction's arm computes from the flags decides the condition `cond`. -/
theorem branchesWhen_of_exec {i : Instr} {cond : Prop} {c : Bool} {off : BitVec 10} {s : State}
    (hexec : exec i s = .next (s.branchIf c off)) (hc : c = true ↔ cond) : BranchesWhen i cond off s := by
  obtain ⟨-, -, hframe⟩ := s.branchIf_spec c off
  refine ⟨_, hexec, hframe, fun htaken => ?taken, fun hnot => ?untaken⟩
  case taken => rw [hc.2 htaken, s.branchIf_true_pc]
  case untaken => rw [Bool.eq_false_iff.2 (hnot ∘ hc.1), s.branchIf_false]

/-- Settles O28: the eight arms are one conditional branch on eight Booleans, each of which decides its condition. -/
theorem branchesTestTheirConditions : Obligations.BranchesTestTheirConditions := by
  unfold Obligations.BranchesTestTheirConditions
  intro off s
  refine ⟨⟨encodedAs_of_row 1 rfl rfl (toNat_encodeBr _ off) (Laws.EncodesInItsRow.beq off), branchesWhen_of_exec rfl ?beq⟩,
    ⟨encodedAs_of_row 2 rfl rfl (toNat_encodeBr _ off) (Laws.EncodesInItsRow.bne off), branchesWhen_of_exec rfl ?bne⟩,
    ⟨encodedAs_of_row 3 rfl rfl (toNat_encodeBr _ off) (Laws.EncodesInItsRow.bc off), branchesWhen_of_exec rfl ?bc⟩,
    ⟨encodedAs_of_row 4 rfl rfl (toNat_encodeBr _ off) (Laws.EncodesInItsRow.bnc off), branchesWhen_of_exec rfl ?bnc⟩,
    ⟨encodedAs_of_row 5 rfl rfl (toNat_encodeBr _ off) (Laws.EncodesInItsRow.bn off), branchesWhen_of_exec rfl ?bn⟩,
    ⟨encodedAs_of_row 6 rfl rfl (toNat_encodeBr _ off) (Laws.EncodesInItsRow.bge off), branchesWhen_of_exec rfl ?bge⟩,
    ⟨encodedAs_of_row 7 rfl rfl (toNat_encodeBr _ off) (Laws.EncodesInItsRow.blt off), branchesWhen_of_exec rfl ?blt⟩,
    ⟨encodedAs_of_row 8 rfl rfl (toNat_encodeBr _ off) (Laws.EncodesInItsRow.bra off), branchesWhen_of_exec rfl ?bra⟩⟩
  case beq | bc | bn => exact Iff.rfl
  case bne | bnc => rw [Bool.not_eq_true', Bool.not_eq_true]
  case bge => exact Bool.and_eq_true_iff
  case blt => rw [Bool.xor_iff_ne, ne_eq, Bool.eq_iff_iff]
  case bra => exact iff_true_intro rfl

/-! ## BL (R291) -/

theorem exec_bl (off : BitVec 13) (s : State) : exec (.bl off) s = .next ((s.setReg lrIdx s.pc).branchIf true off) := rfl

theorem State.setReg_lr_pc (s : State) (v : Word) : (s.setReg lrIdx v).pc = s.pc :=
  s.reg_setReg_of_ne v (by decide)

/-- The word of BL with offset 0 is the sentinel (30_encoding.md R122). -/
theorem encode_bl_zero : encode (.bl 0) = 0 := rfl

/-- Settles O27: the branch after the link writes the pc alone, so it reads the pc that was linked and keeps the link; the
word of offset 0 is the sentinel, whose halt is O39's. -/
theorem blLinksAndJumps : Obligations.BlLinksAndJumps := by
  unfold Obligations.BlLinksAndJumps
  refine ⟨fun off s => ?links, fun s hrun hfetch => ?sentinel⟩
  case links =>
    obtain ⟨-, -, hjump⟩ := (s.setReg lrIdx s.pc).branchIf_spec true off
    have hlink : ((s.setReg lrIdx s.pc).branchIf true off).reg lrIdx = s.pc :=
      (hjump.1 lrIdx (by decide)).trans (s.reg_setReg_self lrIdx s.pc)
    have hpc : ((s.setReg lrIdx s.pc).branchIf true off).pc = targetOf s.pc off.toInt := by
      rw [State.branchIf_true_pc, State.setReg_lr_pc]
    have hframe : OnlyRegs s ((s.setReg lrIdx s.pc).branchIf true off) [lrIdx, pcIdx] :=
      ((OnlyRegs.of_setReg s lrIdx s.pc).mono (by simp)).trans (hjump.mono (by simp))
    exact ⟨encodedAs_of_row 0 rfl rfl (toNat_encodeBl off) (Laws.EncodesInItsRow.bl off), _, exec_bl off s, hlink, hpc,
      hframe⟩
  case sentinel =>
    rw [encode_bl_zero] at hfetch
    obtain ⟨t, hstep, hhalted, -, hpc, hregs, -⟩ := sentinelHaltsCleanly s hrun hfetch
    exact ⟨t, hstep, hhalted, hregs lrIdx (by decide), hpc⟩

end Sys2Proof.Machine

/-! SUPPORT. The SYS family and the unmatched words (47_sys.md): the words of the SYS rows, what executing one leaves, and
which steps report UnknownInstruction (60_exceptions.md R320). -/

namespace Sys2Proof.Machine

/-! ## The words of the SYS rows (R112) -/

/-- The instructions of the family SYS (47_sys.md R310). -/
def isSys : Instr → Bool
  | .setpri _ | .svc _ | .setcc _ | .clrcc _ | .cex _ => true
  | _ => false

theorem isSys_of_mem_sysRows : ∀ r ∈ sysRows, ∀ w, isSys (r.fields w) = true := by simp [sysRows, isSys]

theorem isSys_of_mem_otherRows :
    ∀ r ∈ tocRows ++ alRows ++ rexRows ++ soRows ++ memRinRows, ∀ w, isSys (r.fields w) = false := by
  simp [tocRows, alRows, rexRows, soRows, memRinRows, brRow, alRow, soRow, soWordRow, ldstRow, rinRow, indexedRow, isSys]

theorem mem_opcodeTable_of_mem_sysRows {r : OpcodeRow} (h : r ∈ sysRows) : r ∈ opcodeTable := by simp [opcodeTable, h]

theorem isSys_fields_iff {r : OpcodeRow} (hr : r ∈ opcodeTable) (w : Word) : isSys (r.fields w) = true ↔ r ∈ sysRows := by
  refine ⟨fun h => ?_, fun h => isSys_of_mem_sysRows r h w⟩
  by_contra hsys
  have hother : r ∈ tocRows ++ alRows ++ rexRows ++ soRows ++ memRinRows := by simpa [opcodeTable, hsys] using hr
  simp [isSys_of_mem_otherRows r hother w] at h

/-- The ranges of R112 are the words that the SYS rows cover. -/
theorem sysWord_iff_covers (w : Word) : SysWord w ↔ ∃ r ∈ sysRows, r.covers w = true := by
  have hsetpri := covers_high sysRows[0] w 3 2480 (by decide) (by decide) (by decide)
  have hsvc := covers_high sysRows[1] w 4 1241 (by decide) (by decide) (by decide)
  have hsetcc := covers_high sysRows[2] w 5 621 (by decide) (by decide) (by decide)
  have hclrcc := covers_high sysRows[3] w 5 622 (by decide) (by decide) (by decide)
  have hcex := covers_high sysRows[4] w 10 20 (by decide) (by decide) (by decide)
  simp only [sysRows, List.getElem_cons_zero, List.getElem_cons_succ] at hsetpri hsvc hsetcc hclrcc hcex
  simp only [sysRows, List.mem_cons, List.not_mem_nil, or_false, exists_eq_or_imp, exists_eq_left, hsetpri, hsvc,
    hsetcc, hclrcc, hcex, decide_eq_true_iff, SysWord]
  omega

theorem isSys_iff_sysWord {w : Word} {i : Instr} (hd : decodeWord w = .ok i) : isSys i = true ↔ SysWord w := by
  rw [sysWord_iff_covers]
  constructor
  case mp =>
    intro hi
    obtain ⟨-, hdecode, -⟩ | ⟨r, hr, hw, hdecode, -⟩ := scan_cases w 0 <;> cases hdecode.symm.trans hd
    exact ⟨r, (isSys_fields_iff hr w).1 hi, hw⟩
  case mpr =>
    rintro ⟨r, hr, hw⟩
    cases (decodeWord_of_covers (mem_opcodeTable_of_mem_sysRows hr) hw).symm.trans hd
    exact isSys_of_mem_sysRows r hr w

theorem exists_decodeWord_of_sysWord {w : Word} (h : SysWord w) : ∃ i, decodeWord w = .ok i := by
  obtain ⟨r, hr, hw⟩ := (sysWord_iff_covers w).1 h
  exact ⟨_, decodeWord_of_covers (mem_opcodeTable_of_mem_sysRows hr) hw⟩

theorem ne_zero_of_sysWord {w : Word} (h : SysWord w) : w ≠ 0 := by
  rintro rfl
  revert h
  unfold SysWord
  decide

/-! ## What an instruction reports (R310) -/

theorem exec_of_isSys {i : Instr} (h : isSys i = true) (s : State) : exec i s = .next (s.unclassified (encode i)) := by
  cases i with
  | setpri low | svc low | setcc low | clrcc low | cex low => rfl
  | _ => cases h

/-- An instruction outside SYS never takes the unclassified case of the executor. -/
theorem exec_of_not_isSys {i : Instr} (h : isSys i = false) (s : State) :
    ∃ t, exec i s = .next t ∧ CompletesOrAborts s t := by
  cases i with
  | setpri low | svc low | setcc low | clrcc low | cex low => cases h
  | bl off => exact ⟨_, rfl, .inl ((s.setReg_sameControl lrIdx s.pc).trans (State.branchIf_sameControl _ _ off))⟩
  | beq off | bne off | bc off | bnc off | bn off | bge off | blt off | bra off =>
    exact ⟨_, rfl, .inl (s.branchIf_sameControl _ off)⟩
  | add w src dst | addc w src dst | sub w src dst | subc w src dst | dadd w src dst | cmp w src dst | xor w src dst
  | and w src dst | or w src dst | bit w src dst | bic w src dst | bis w src dst =>
    exact ⟨_, rfl, .inl (s.runAl_sameControl _ w src dst)⟩
  | sra w dst | rrc w dst | comp w dst | swpb dst | sxt dst => exact ⟨_, rfl, .inl (s.runSo_sameControl _ _ dst)⟩
  | mov _ _ dst | movl _ dst | movh _ dst => exact ⟨_, rfl, .inl (s.writeReg_sameControl dst _ _ _)⟩
  | swap src dst | movlz src dst | movls src dst => exact ⟨_, rfl, .inl ⟨rfl, rfl, rfl⟩⟩
  | ld mode w src dst =>
    exact ⟨_, rfl, .after (s.preAdjust_sameControl mode w src)
      (State.loadThen_completesOrAborts _ w _ dst fun u => u.postAdjust_sameControl mode w src _)⟩
  | st mode w src dst =>
    exact ⟨_, rfl, .after (s.preAdjust_sameControl mode w dst)
      (State.storeThen_completesOrAborts _ w _ _ fun u => u.postAdjust_sameControl mode w dst _)⟩
  | ldr disp w src dst => exact ⟨_, rfl, s.loadThen_completesOrAborts w _ dst SameControl.refl⟩
  | str disp w src dst => exact ⟨_, rfl, s.storeThen_completesOrAborts w _ _ SameControl.refl⟩

theorem CompletesOrAborts.report_ne_unknownInstruction {s t : State} (h : CompletesOrAborts s t) (hs : s.report = .none)
    (x : Word) : t.report ≠ .unknownInstruction x := by
  obtain ⟨-, hreport, -⟩ | ⟨u, e, -, rfl⟩ := h
  · simp [hreport, hs]
  · simp

/-! ## The step -/

theorem step_of_sysWord {s : State} {w : Word} (hrun : s.run = .running) (hfetch : s.fetch = .ok w) (hw : SysWord w) :
    step s = .next (s.advance.unclassified w) := by
  obtain ⟨i, hd⟩ := exists_decodeWord_of_sysWord hw
  rw [step_of_fetch_ok hrun hfetch, State.runWord_of_decoded _ (ne_zero_of_sysWord hw) hd,
    exec_of_isSys ((isSys_iff_sysWord hd).2 hw), encodeOfDecodeIsTheWord w i hd]

/-- Settles O29: the five arms are the unclassified case of the executor, and a SYS word decodes to one of them. -/
theorem sysInstructionsOnlyReport : Obligations.SysInstructionsOnlyReport := by
  unfold Obligations.SysInstructionsOnlyReport
  refine ⟨fun s a3 a4 a5 a10 => ⟨rfl, rfl, rfl, rfl, rfl⟩, fun a3 a4 a5 a10 => ⟨?setpri, ?svc, ?setcc, ?clrcc, ?cex⟩,
    fun s w hrun hfetch hw => ?step⟩
  case setpri => exact encodedAs_of_row 28 rfl rfl (toNat_append_add _ _) (Laws.EncodesInItsRow.setpri a3)
  case svc => exact encodedAs_of_row 29 rfl rfl (toNat_append_add _ _) (Laws.EncodesInItsRow.svc a4)
  case setcc => exact encodedAs_of_row 30 rfl rfl (toNat_append_add _ _) (Laws.EncodesInItsRow.setcc a5)
  case clrcc => exact encodedAs_of_row 31 rfl rfl (toNat_append_add _ _) (Laws.EncodesInItsRow.clrcc a5)
  case cex => exact encodedAs_of_row 32 rfl rfl (toNat_append_add _ _) (Laws.EncodesInItsRow.cex a10)
  case step => exact ⟨_, step_of_sysWord hrun hfetch hw, advance_unclassified_reportsUnknown s w⟩

/-- A step that fetches a word outside the unmatched and the SYS words reports no unknown instruction: the word is the
sentinel, or it decodes to an instruction that completes or aborts. -/
theorem report_ne_unknownInstruction_of_step {s t : State} {w : Word} (hrun : s.run = .running)
    (hfetch : s.fetch = .ok w) (hunmatched : ¬Unmatched w) (hsys : ¬SysWord w) (hstep : step s = .next t) (x : Word) :
    t.report ≠ .unknownInstruction x := by
  by_cases hzero : w = 0
  · subst hzero
    cases (step_of_fetch_zero hrun hfetch).symm.trans hstep
    simp
  obtain ⟨-, hd, -⟩ | ⟨r, -, -, hd, -⟩ := scan_cases w 0
  · exact absurd ((unmatched_iff_decodeWord_error w).2 hd) hunmatched
  · have hexec : exec (r.fields w) s.advance = .next t := by
      rw [← State.runWord_of_decoded _ hzero hd, ← step_of_fetch_ok hrun hfetch, hstep]
    have hi : isSys (r.fields w) = false := Bool.eq_false_iff.2 fun h => hsys ((isSys_iff_sysWord hd).1 h)
    obtain ⟨u, hu, hcase⟩ := exec_of_not_isSys hi s.advance
    cases hu.symm.trans hexec
    exact hcase.report_ne_unknownInstruction s.advance_report x

/-- Settles O42: an unmatched word and a SYS word are reported, each as itself, and a step that fetches another word makes
no such report. -/
theorem unknownInstructionExactlyOnUnmatchedAndSysWords :
    Obligations.UnknownInstructionExactlyOnUnmatchedAndSysWords := by
  unfold Obligations.UnknownInstructionExactlyOnUnmatchedAndSysWords
  intro s t w hrun hfetch hstep
  by_cases hw : Unmatched w ∨ SysWord w
  · have hreports : ReportsUnknown s t w := by
      obtain ⟨-, hunmatched⟩ := unmatchedWordsReportUnknownInstruction
      obtain ⟨u, hu, hreports⟩ := hw.elim (hunmatched s w hrun hfetch) fun hsys =>
        ⟨_, step_of_sysWord hrun hfetch hsys, advance_unclassified_reportsUnknown s w⟩
      cases hu.symm.trans hstep
      exact hreports
    obtain ⟨-, hreport, -⟩ := hreports
    exact ⟨iff_of_true ⟨w, hreport⟩ hw, fun x hx => by cases hreport.symm.trans hx; rfl⟩
  · have hnone := report_ne_unknownInstruction_of_step hrun hfetch (hw ∘ .inl) (hw ∘ .inr) hstep
    exact ⟨iff_of_false (fun ⟨x, hx⟩ => hnone x hx) hw, fun x hx => absurd hx (hnone x)⟩

end Sys2Proof.Machine

/-! SUPPORT. The S-record loader and the boot (70_reset_and_hazards.md R350 to R366): the checksum in arithmetic, what one
record and what a whole image leave of the loader's state, and the load-and-dump property. -/

namespace Sys2Proof.Machine

/-! ## The checksum (R356) -/

theorem recordSum_eq (r : SRecord) : recordSum r =
    r.count.toNat + r.address.toNat / 256 + r.address.toNat % 256 + (r.data.map BitVec.toNat).sum := by
  rw [recordSum, toNat_hiByte, toNat_loByte]

theorem recordAccepted_iff (r : SRecord) :
    recordAccepted r = true ↔ (recordSum r + r.checksum.toNat) % 256 = 255 := by
  have hlt := r.checksum.isLt
  rw [recordAccepted, beq_iff_eq, ← BitVec.toNat_inj, recordChecksum, BitVec.toNat_ofNat]
  omega

/-! ## One record (R357 to R360) -/

/-- The report of a data record whose block write ended with the failure `e`, or with none (R358). -/
def blockReport : Option BusError → LoadReport
  | none => .none
  | some e => .addressOutOfRange e

theorem LoadState.applyRecord_of_rejected (l : LoadState) {r : SRecord} (h : recordAccepted r = false) :
    l.applyRecord r = (l, .checksumMismatch) := by simp [LoadState.applyRecord, h]

theorem LoadState.applyRecord_of_data (l : LoadState) {r : SRecord} (h : recordAccepted r = true) (htype : r.type = 1) :
    l.applyRecord r = ({ l with core := (l.core.writeBlock r.address.toNat r.data).1 },
      blockReport (l.core.writeBlock r.address.toNat r.data).2) := by
  rw [LoadState.applyRecord, if_pos h, LoadState.applyAccepted, if_pos htype]
  split <;> next hwrite => rw [hwrite, blockReport]

theorem LoadState.applyRecord_of_start (l : LoadState) {r : SRecord} (h : recordAccepted r = true) (htype : r.type = 9) :
    l.applyRecord r = ({ l with start := some r.address }, .none) := by
  simp [LoadState.applyRecord, LoadState.applyAccepted, h, htype]

theorem LoadState.applyRecord_of_other (l : LoadState) {r : SRecord} (h : recordAccepted r = true) (hdata : r.type ≠ 1)
    (hstart : r.type ≠ 9) : l.applyRecord r = (l, .none) := by
  simp [LoadState.applyRecord, LoadState.applyAccepted, h, hdata, hstart]

/-- Everything one record can do to the loader's state: an accepted data record is written as a block, an accepted start
record sets the start address, and any other record has no effect. -/
theorem LoadState.applyRecord_cases (l : LoadState) (r : SRecord) :
    ((recordAccepted r = true ∧ r.type = 1) ∧
        (l.applyRecord r).1 = { l with core := (l.core.writeBlock r.address.toNat r.data).1 }) ∨
      ((recordAccepted r = true ∧ r.type = 9) ∧ (l.applyRecord r).1 = { l with start := some r.address }) ∨
      (¬(recordAccepted r = true ∧ r.type = 1) ∧ ¬(recordAccepted r = true ∧ r.type = 9) ∧ (l.applyRecord r).1 = l) := by
  cases h : recordAccepted r with
  | false => simp [l.applyRecord_of_rejected h]
  | true =>
    by_cases hdata : r.type = 1
    · exact .inl ⟨⟨rfl, hdata⟩, by rw [l.applyRecord_of_data h hdata]⟩
    by_cases hstart : r.type = 9
    · exact .inr (.inl ⟨⟨rfl, hstart⟩, by rw [l.applyRecord_of_start h hstart]⟩)
    · exact .inr (.inr ⟨hdata ∘ And.right, hstart ∘ And.right, by rw [l.applyRecord_of_other h hdata hstart]⟩)

/-- Settles O51: the checksum byte is the complement of the sum, and a rejected record keeps the loader's state. -/
theorem checksumDecidesAcceptance : Obligations.ChecksumDecidesAcceptance := by
  unfold Obligations.ChecksumDecidesAcceptance
  refine ⟨recordAccepted_iff, recordSum_eq, fun l r rest h => ⟨l.applyRecord_of_rejected h, ?_⟩⟩
  rw [LoadState.applyImage, l.applyRecord_of_rejected h]

/-! ## What loading leaves alone -/

theorem State.writeBlock_writesBelow (s : State) (addr : Nat) (bytes : List Byte) :
    WritesBelow s.cfg.memSize s.mem (s.writeBlock addr bytes).1.mem := by
  induction bytes generalizing s addr with
  | nil => exact .refl
  | cons b rest ih =>
    by_cases h : addr < s.cfg.memSize
    · rw [State.writeBlock_cons_of_lt b rest h]
      exact (s.writesBelow_setByte b h).trans (ih (s.setByte addr b) (addr + 1))
    · rw [State.writeBlock_cons_of_not_lt b rest h]

/-- The frame of the loader on the core: only bytes of memory below the bound are written. -/
def OnlyMemory (s t : State) : Prop :=
  SameRegsBut s t [] ∧ t.psw = s.psw ∧ SameControl s t ∧ WritesBelow s.cfg.memSize s.mem t.mem

theorem OnlyMemory.refl (s : State) : OnlyMemory s s := ⟨fun _ _ => rfl, rfl, .refl s, .refl⟩

theorem OnlyMemory.cfg_eq {s t : State} (h : OnlyMemory s t) : t.cfg = s.cfg := by
  obtain ⟨-, -, ⟨-, -, hcfg⟩, -⟩ := h
  exact hcfg

theorem OnlyMemory.trans {s t u : State} (h : OnlyMemory s t) (k : OnlyMemory t u) : OnlyMemory s u := by
  have hcfg := h.cfg_eq
  obtain ⟨hregs, hpsw, hcontrol, hmem⟩ := h
  obtain ⟨kregs, kpsw, kcontrol, kmem⟩ := k
  rw [hcfg] at kmem
  exact ⟨fun r hr => (kregs r hr).trans (hregs r hr), kpsw.trans hpsw, hcontrol.trans kcontrol, hmem.trans kmem⟩

theorem LoadState.applyRecord_onlyMemory (l : LoadState) (r : SRecord) :
    OnlyMemory l.core (l.applyRecord r).1.core := by
  obtain ⟨-, h⟩ | ⟨-, h⟩ | ⟨-, -, h⟩ := l.applyRecord_cases r <;> rw [h]
  · obtain ⟨hregs, hpsw, hcontrol⟩ := l.core.writeBlock_frame r.address.toNat r.data
    exact ⟨hregs, hpsw, hcontrol, l.core.writeBlock_writesBelow _ _⟩
  · exact .refl _
  · exact .refl _

theorem LoadState.applyImage_onlyMemory (l : LoadState) (image : List SRecord) :
    OnlyMemory l.core (l.applyImage image).1.core := by
  induction image generalizing l with
  | nil => exact .refl _
  | cons r rest ih => exact (l.applyRecord_onlyMemory r).trans (ih (l.applyRecord r).1)

/-! ## The start address of an image (R360) -/

theorem LoadState.applyRecord_start (l : LoadState) (r : SRecord) : (l.applyRecord r).1.start =
    if recordAccepted r && r.type == 9 then some r.address else l.start := by
  obtain ⟨⟨-, hdata⟩, h⟩ | ⟨⟨hacc, hstart⟩, h⟩ | ⟨-, hno, h⟩ := l.applyRecord_cases r <;> rw [h]
  · simp [hdata]
  · simp [hacc, hstart]
  · rw [if_neg (by simpa using hno)]

/-- The last accepted start record decides. -/
theorem LoadState.applyImage_start (l : LoadState) (image : List SRecord) (startPc : Word) :
    (l.applyImage image).1.start.getD startPc =
      (((image.filter fun r => recordAccepted r && r.type == 9).getLast?).map (·.address)).getD
        (l.start.getD startPc) := by
  induction image generalizing l with
  | nil => rfl
  | cons r rest ih =>
    rw [LoadState.applyImage, ih, l.applyRecord_start, List.filter_cons]
    split
    case isTrue =>
      rw [List.getLast?_cons]
      cases (rest.filter _).getLast? <;> rfl
    case isFalse => rfl

/-! ## The bytes of an image (R361) -/

/-- What byte `a` of a memory of `memSize` bytes holds after the record `r`, if it held `b` before. -/
def byteAfterRecord (memSize a : Nat) (b : Byte) (r : SRecord) : Byte :=
  if recordAccepted r = true ∧ r.type = 1 ∧ r.address.toNat ≤ a ∧ a < r.address.toNat + r.data.length ∧ a < memSize
  then r.data.getD (a - r.address.toNat) 0 else b

theorem LoadState.applyRecord_byteAt (l : LoadState) (r : SRecord) (a : Nat) :
    (l.applyRecord r).1.core.byteAt a = byteAfterRecord l.core.cfg.memSize a (l.core.byteAt a) r := by
  rw [byteAfterRecord]
  obtain ⟨⟨hacc, hdata⟩, h⟩ | ⟨⟨-, hstart⟩, h⟩ | ⟨hno, -, h⟩ := l.applyRecord_cases r <;> rw [h]
  · simp only [State.writeBlock_byteAt, hacc, hdata, true_and]
  · simp [hstart]
  · rw [if_neg fun ⟨hacc, hdata, _⟩ => hno ⟨hacc, hdata⟩]

theorem LoadState.applyImage_byteAt (l : LoadState) (image : List SRecord) (a : Nat) :
    (l.applyImage image).1.core.byteAt a =
      image.foldl (byteAfterRecord l.core.cfg.memSize a) (l.core.byteAt a) := by
  induction image generalizing l with
  | nil => rfl
  | cons r rest ih =>
    rw [LoadState.applyImage, ih, (l.applyRecord_onlyMemory r).cfg_eq, l.applyRecord_byteAt, List.foldl_cons]

/-! ## The boot order (R361) -/

/-- The loader's state before the first record. -/
def LoadState.created (cfg : Config) (regInit : Vector Word 8) : LoadState :=
  { core := State.created cfg regInit, start := none }

theorem State.boot_eq (cfg : Config) (regInit : Vector Word 8) (startPc : Word) (image : List SRecord) :
    let loaded := ((LoadState.created cfg regInit).applyImage image).1
    (State.boot cfg regInit startPc image).1 = { loaded.core.setPc (loaded.start.getD startPc) with run := .running } := rfl

/-- Settles O52: loading keeps the registers, the PSW and the parameters of the created core; its effects on memory and on
the start address are those of the records in turn. -/
theorem bootSetsEveryPieceOfState : Obligations.BootSetsEveryPieceOfState := by
  unfold Obligations.BootSetsEveryPieceOfState
  intro cfg regInit startPc image s
  obtain ⟨hregs, hpsw, ⟨-, -, hcfg⟩, -⟩ := (LoadState.created cfg regInit).applyImage_onlyMemory image
  refine ⟨fun r hr => ?regs, ?pc, hpsw, rfl, hcfg, fun a => ?mem⟩
  case regs => exact (State.reg_setReg_of_ne _ _ hr).trans (hregs r List.not_mem_nil)
  case pc => exact (State.pc_setPc _ _).trans (LoadState.applyImage_start _ image startPc)
  case mem => exact (LoadState.created cfg regInit).applyImage_byteAt image a

/-- Settles O53: the created core has the memory and the PSW of reset, and loading writes bytes below the bound. -/
theorem bootSatisfiesTheInvariant : Obligations.BootSatisfiesTheInvariant := by
  unfold Obligations.BootSatisfiesTheInvariant
  intro cfg regInit startPc image
  obtain ⟨-, hpsw, ⟨-, -, hcfg⟩, hwrites⟩ := (LoadState.created cfg regInit).applyImage_onlyMemory image
  obtain ⟨⟨hreset, -, hinert⟩, -⟩ := resetSatisfiesTheInvariant
  have hempty : Memory.CanonicalBelow cfg.memSize [] := ⟨hreset, fun _ hc => absurd hc List.not_mem_nil⟩
  obtain ⟨hwf, hbound⟩ := hwrites.canonicalBelow hempty
  refine ⟨hwf, ?_, (congrArg pswInert hpsw).trans hinert⟩
  rw [State.boot_eq]
  exact hcfg ▸ hbound

/-! ## The load-and-dump property (R366) -/

theorem State.writeBlock_of_fits {s : State} {addr : Nat} {bytes : List Byte} (h : addr + bytes.length ≤ s.cfg.memSize) :
    (s.writeBlock addr bytes).2 = none := by
  rw [State.writeBlock_error, blockError, if_pos (.inr h)]

theorem State.writeBlock_byteAt_of_fits {s : State} {addr : Nat} {bytes : List Byte}
    (h : addr + bytes.length ≤ s.cfg.memSize) {i : Nat} (hi : i < bytes.length) :
    (s.writeBlock addr bytes).1.byteAt (addr + i) = bytes[i] := by
  rw [State.writeBlock_byteAt, if_pos (by omega), Nat.add_sub_cancel_left, List.getD_eq_getElem _ _ hi]

theorem State.writeBlock_cfg (s : State) (addr : Nat) (bytes : List Byte) : (s.writeBlock addr bytes).1.cfg = s.cfg := by
  obtain ⟨-, -, -, -, hcfg⟩ := s.writeBlock_frame addr bytes
  exact hcfg

/-- A block that was written within the bound reads back. -/
theorem State.readBlock_writeBlock {s : State} {addr : Nat} {bytes : List Byte}
    (h : addr + bytes.length ≤ s.cfg.memSize) :
    (s.writeBlock addr bytes).1.readBlock addr bytes.length = (bytes, none) := by
  have hlen : min bytes.length (s.cfg.memSize - addr) = bytes.length := by omega
  rw [State.readBlock_eq, State.writeBlock_cfg, hlen, blockError, if_pos (.inr h)]
  congr 1
  refine List.ext_getElem (by simp) fun i _ hi => ?_
  rw [List.getElem_map, List.getElem_range', Nat.one_mul, State.writeBlock_byteAt_of_fits h hi]

/-- The second byte of the word at 0 is byte 1 under both settings of HIGH_BYTE_ADDR. -/
theorem State.next_zero (s : State) : s.next 0 = 1 := by
  unfold State.next nextAddr
  split <;> rfl

theorem State.fetch_zero_writeBlock {s : State} {d₀ d₁ : Byte} {rest : List Byte}
    (h : 0 + (d₀ :: d₁ :: rest).length ≤ s.cfg.memSize) :
    ((s.writeBlock 0 (d₀ :: d₁ :: rest)).1.setPc 0).fetch = .ok (wordOfBytes d₀ d₁) := by
  have hin : TransferInRange (s.writeBlock 0 (d₀ :: d₁ :: rest)).1 .word 0 := by
    simp only [List.length_cons] at h
    simp only [TransferInRange, storedBytes, State.next_zero, State.writeBlock_cfg, List.forall_mem_cons]
    exact ⟨by simp; omega, by omega, fun _ hmem => absurd hmem List.not_mem_nil⟩
  have hfirst : (s.writeBlock 0 (d₀ :: d₁ :: rest)).1.byteAt (0 : Word).toNat = d₀ :=
    State.writeBlock_byteAt_of_fits h (i := 0) (by simp)
  have hsecond : (s.writeBlock 0 (d₀ :: d₁ :: rest)).1.byteAt 1 = d₁ :=
    State.writeBlock_byteAt_of_fits h (i := 1) (by simp)
  rw [State.fetch_setPc, State.memRead_of_inRange hin, State.valueAt, State.next_zero, hfirst, hsecond]

/-- Settles O54: the record is one block write within the bound, which reads back whole, and at 0 byte by byte. -/
theorem loadedRecordIsDumpedAndFetched : Obligations.LoadedRecordIsDumpedAndFetched := by
  unfold Obligations.LoadedRecordIsDumpedAndFetched
  intro l r maxSpan hacc htype hfits hspan
  simp only [l.applyRecord_of_data hacc htype]
  refine ⟨?report, ?dump, fun d₀ d₁ rest hzero hdata => ?fetch⟩
  case report => rw [State.writeBlock_of_fits hfits, blockReport]
  case dump => rw [State.dump, Nat.min_eq_left hspan, State.readBlock_writeBlock hfits]
  case fetch =>
    rw [hzero, hdata] at hfits ⊢
    exact State.fetch_zero_writeBlock hfits

end Sys2Proof.Machine
